-- ==== Sys2Proof/Word.lean ====
section
/-! DEFINITION. The value types of the machine: bytes, 16-bit words, 12-bit addresses embedded in an instruction, register
indices (00_scope.md R12). All values are unsigned. -/

namespace Sys2Proof

/-- `u8` of R12: a general register, a timer, a byte of memory, an immediate byte kk. -/
abbrev Byte := BitVec 8

/-- `u16` of R12: I, PC, a stack entry, an instruction word. -/
abbrev Word := BitVec 16

/-- `u12` of R12: the embedded address nnn (30_encoding.md R91). -/
abbrev Addr := BitVec 12

/-- A register index, and a key index: always 0 to 15 (10_state.md R21, R38). -/
abbrev Reg := Fin 16

end Sys2Proof
end

