-- ==== Sys2Proof/Syntax.lean ====
section
/-! DEFINITION. The instructions: one constructor for each of the 34 rows of spec/opcode_table.json (30_encoding.md R96), in
the table's order. Ignored bits of a word are no operand (R98: 0x5AB0 and 0x5AB7 are the same instruction). -/

namespace Sys2Proof

inductive Instr where
  /-- row 1, `CLS`, clear-display -/
  | cls
  /-- row 2, `RET`, return -/
  | ret
  /-- row 3, `JP nnn`, jump -/
  | jpNnn (nnn : Addr)
  /-- row 4, `CALL nnn`, call -/
  | callNnn (nnn : Addr)
  /-- row 5, `SE Vx, kk`, skip-if-equal -/
  | seVxKk (x : Reg) (kk : Byte)
  /-- row 6, `SNE Vx, kk`, skip-if-not-equal -/
  | sneVxKk (x : Reg) (kk : Byte)
  /-- row 7, `SE Vx, Vy`, skip-if-registers-equal -/
  | seVxVy (x y : Reg)
  /-- row 8, `LD Vx, kk`, load immediate -/
  | ldVxKk (x : Reg) (kk : Byte)
  /-- row 9, `ADD Vx, kk`, add immediate -/
  | addVxKk (x : Reg) (kk : Byte)
  /-- row 10, `LD Vx, Vy`, assign -/
  | ldVxVy (x y : Reg)
  /-- row 11, `OR Vx, Vy` -/
  | orVxVy (x y : Reg)
  /-- row 12, `AND Vx, Vy` -/
  | andVxVy (x y : Reg)
  /-- row 13, `XOR Vx, Vy` -/
  | xorVxVy (x y : Reg)
  /-- row 14, `ADD Vx, Vy` -/
  | addVxVy (x y : Reg)
  /-- row 15, `SUB Vx, Vy`, subtract -/
  | subVxVy (x y : Reg)
  /-- row 16, `SHR Vx`, shift-right -/
  | shrVx (x : Reg)
  /-- row 17, `SUBN Vx, Vy`, subtract-reversed -/
  | subnVxVy (x y : Reg)
  /-- row 18, `SHL Vx`, shift-left -/
  | shlVx (x : Reg)
  /-- row 19, `SNE Vx, Vy`, skip-if-registers-not-equal -/
  | sneVxVy (x y : Reg)
  /-- row 20, `LD I, nnn`, set index -/
  | ldINnn (nnn : Addr)
  /-- row 21, `JP V0, nnn`, jump-with-offset -/
  | jpV0Nnn (nnn : Addr)
  /-- row 22, `RND Vx, kk`, random -/
  | rndVxKk (x : Reg) (kk : Byte)
  /-- row 23, `DRW Vx, Vy, n`, draw sprite; n is a count of rows, 0 to 15 (30_encoding.md R94) -/
  | drwVxVyN (x y : Reg) (n : Nat)
  /-- row 24, `SKP Vx`, skip-if-key-pressed -/
  | skpVx (x : Reg)
  /-- row 25, `SKNP Vx`, skip-if-key-not-pressed -/
  | sknpVx (x : Reg)
  /-- row 26, `LD Vx, DT`, get-delay-timer -/
  | ldVxDt (x : Reg)
  /-- row 27, `LD Vx, K`, wait-for-key -/
  | ldVxK (x : Reg)
  /-- row 28, `LD DT, Vx`, set-delay-timer -/
  | ldDtVx (x : Reg)
  /-- row 29, `LD ST, Vx`, set-sound-timer -/
  | ldStVx (x : Reg)
  /-- row 30, `ADD I, Vx`, add-to-index -/
  | addIVx (x : Reg)
  /-- row 31, `LD F, Vx`, set-index-to-font -/
  | ldFVx (x : Reg)
  /-- row 32, `LD B, Vx`, store-BCD -/
  | ldBVx (x : Reg)
  /-- row 33, `LD [I], Vx`, register-dump -/
  | ldMemVx (x : Reg)
  /-- row 34, `LD Vx, [I]`, register-load -/
  | ldVxMem (x : Reg)
deriving DecidableEq, Repr

end Sys2Proof
end

