-- ==== Sys2Proof/WellFormed.lean ====
section
/-! DEFINITION. Which instructions can be written as a word. Register indices, immediates and addresses have types of the
field's width, so no out-of-range one can be formed (10_state.md R21); the one check left is the sprite height. -/

namespace Sys2Proof

/-- A sprite height is a 4-bit count, 0 to 15 (30_encoding.md R94; log 27). -/
def spriteHeightFits (n : Nat) : Bool := decide (n ≤ 15)

/-- The instruction has an encoding. -/
def Instr.wellFormed : Instr → Bool
  | .drwVxVyN _ _ n => spriteHeightFits n
  | .cls | .ret | .jpNnn _ | .callNnn _ | .seVxKk _ _ | .sneVxKk _ _ | .seVxVy _ _ | .ldVxKk _ _ | .addVxKk _ _
  | .ldVxVy _ _ | .orVxVy _ _ | .andVxVy _ _ | .xorVxVy _ _ | .addVxVy _ _ | .subVxVy _ _ | .shrVx _ | .subnVxVy _ _
  | .shlVx _ | .sneVxVy _ _ | .ldINnn _ | .jpV0Nnn _ | .rndVxKk _ _ | .skpVx _ | .sknpVx _ | .ldVxDt _ | .ldVxK _
  | .ldDtVx _ | .ldStVx _ | .addIVx _ | .ldFVx _ | .ldBVx _ | .ldMemVx _ | .ldVxMem _ => true

end Sys2Proof
end

