-- ==== Sys2Proof/Decode.lean ====
section
/-! DEFINITION. The decoder, total on any bytes, and the encoder, both written from 30_encoding.md R91, R96, R98, R99 and
R103; and the opcode map of R96 as data. The secondary codes and the places of x and y are PRESUMED by the spec (unsafe,
log 19 and 20). -/

namespace Sys2Proof

/-! ### Fields of an instruction word (R91) -/

/-- top = ir[15:12] -/
def fieldTop (w : Word) : BitVec 4 := w.extractLsb' 12 4
/-- x = ir[11:8] -/
def fieldX (w : Word) : Reg := (w.extractLsb' 8 4).toFin
/-- y = ir[7:4] -/
def fieldY (w : Word) : Reg := (w.extractLsb' 4 4).toFin
/-- n = ir[3:0] -/
def fieldN (w : Word) : BitVec 4 := w.extractLsb' 0 4
/-- kk = ir[7:0] -/
def fieldKk (w : Word) : Byte := w.extractLsb' 0 8
/-- nnn = ir[11:0] -/
def fieldNnn (w : Word) : Addr := w.extractLsb' 0 12

/-! ### The decoder (R103) -/

/-- Family 0 compares the whole word (R98); 0x0nnn otherwise is unrecognized (R100, DESIGN CHOICE of the spec, log 15). -/
def decodeFamily0 (w : Word) : Option Instr :=
  if w = 0x00E0#16 then some .cls else if w = 0x00EE#16 then some .ret else none

/-- Family 8 compares the low nibble (R98). The y field of the two shifts is not examined. -/
def decodeFamily8 (w : Word) : Option Instr :=
  match (fieldN w).toNat with
  | 0x0 => some (.ldVxVy (fieldX w) (fieldY w))
  | 0x1 => some (.orVxVy (fieldX w) (fieldY w))
  | 0x2 => some (.andVxVy (fieldX w) (fieldY w))
  | 0x3 => some (.xorVxVy (fieldX w) (fieldY w))
  | 0x4 => some (.addVxVy (fieldX w) (fieldY w))
  | 0x5 => some (.subVxVy (fieldX w) (fieldY w))
  | 0x6 => some (.shrVx (fieldX w))
  | 0x7 => some (.subnVxVy (fieldX w) (fieldY w))
  | 0xE => some (.shlVx (fieldX w))
  | _ => none

/-- Family E compares the low byte (R98). -/
def decodeFamilyE (w : Word) : Option Instr :=
  match (fieldKk w).toNat with
  | 0x9E => some (.skpVx (fieldX w))
  | 0xA1 => some (.sknpVx (fieldX w))
  | _ => none

/-- Family F compares the low byte (R98). -/
def decodeFamilyF (w : Word) : Option Instr :=
  match (fieldKk w).toNat with
  | 0x07 => some (.ldVxDt (fieldX w))
  | 0x0A => some (.ldVxK (fieldX w))
  | 0x15 => some (.ldDtVx (fieldX w))
  | 0x18 => some (.ldStVx (fieldX w))
  | 0x1E => some (.addIVx (fieldX w))
  | 0x29 => some (.ldFVx (fieldX w))
  | 0x33 => some (.ldBVx (fieldX w))
  | 0x55 => some (.ldMemVx (fieldX w))
  | 0x65 => some (.ldVxMem (fieldX w))
  | _ => none

/-- The decode procedure of R103 on one word: `none` is "unrecognized". Families 5 and 9 do not examine the low nibble
(R98, DESIGN CHOICE of the spec, log 14). -/
def decodeWord (w : Word) : Option Instr :=
  match (fieldTop w).toNat with
  | 0x0 => decodeFamily0 w
  | 0x1 => some (.jpNnn (fieldNnn w))
  | 0x2 => some (.callNnn (fieldNnn w))
  | 0x3 => some (.seVxKk (fieldX w) (fieldKk w))
  | 0x4 => some (.sneVxKk (fieldX w) (fieldKk w))
  | 0x5 => some (.seVxVy (fieldX w) (fieldY w))
  | 0x6 => some (.ldVxKk (fieldX w) (fieldKk w))
  | 0x7 => some (.addVxKk (fieldX w) (fieldKk w))
  | 0x8 => decodeFamily8 w
  | 0x9 => some (.sneVxVy (fieldX w) (fieldY w))
  | 0xA => some (.ldINnn (fieldNnn w))
  | 0xB => some (.jpV0Nnn (fieldNnn w))
  | 0xC => some (.rndVxKk (fieldX w) (fieldKk w))
  | 0xD => some (.drwVxVyN (fieldX w) (fieldY w) (fieldN w).toNat)
  | 0xE => decodeFamilyE w
  | 0xF => decodeFamilyF w
  | _ => none

/-- Why a list of bytes is no instruction. -/
inductive DecodeError where
  /-- fewer than the two bytes every instruction has (R90) -/
  | truncated
  /-- the word matches no row of the opcode map (R99) -/
  | unrecognized (w : Word)
deriving DecidableEq, Repr

/-- Big-endian: the byte at the lower address is bits 15:8 (20_memory.md R65). -/
def wordOfBytes (hi lo : Byte) : Word := hi ++ lo

/-- The decoder: one instruction and the bytes after it, or the reason there is none. -/
def decode : List Byte → Except DecodeError (Instr × List Byte)
  | hi :: lo :: rest =>
    match decodeWord (wordOfBytes hi lo) with
    | some i => .ok (i, rest)
    | none => .error (.unrecognized (wordOfBytes hi lo))
  | _ => .error .truncated

/-! ### The encoder (R93, R96), ignored bits written as 0 -/

/-- Format A: `tttt nnnn nnnn nnnn`. -/
def formatA (top : BitVec 4) (nnn : Addr) : Word := top ++ nnn
/-- Format XK: `tttt xxxx kkkk kkkk`; format X with its fixed low byte in place of kk. -/
def formatXK (top : BitVec 4) (x : Reg) (kk : Byte) : Word := top ++ (BitVec.ofFin x : BitVec 4) ++ kk
/-- Formats XY and XYN: `tttt xxxx yyyy nnnn`, the last nibble a height, a sub-operation or 0. -/
def formatXYN (top : BitVec 4) (x y : Reg) (n : BitVec 4) : Word := top ++ (BitVec.ofFin x : BitVec 4) ++ (BitVec.ofFin y : BitVec 4) ++ n

/-- The word of a well-formed instruction. Of an ill-formed one (a height above 15) it drops the bits that do not fit. -/
def encode : Instr → Word
  | .cls => 0x00E0#16
  | .ret => 0x00EE#16
  | .jpNnn nnn => formatA 0x1#4 nnn
  | .callNnn nnn => formatA 0x2#4 nnn
  | .seVxKk x kk => formatXK 0x3#4 x kk
  | .sneVxKk x kk => formatXK 0x4#4 x kk
  | .seVxVy x y => formatXYN 0x5#4 x y 0x0#4
  | .ldVxKk x kk => formatXK 0x6#4 x kk
  | .addVxKk x kk => formatXK 0x7#4 x kk
  | .ldVxVy x y => formatXYN 0x8#4 x y 0x0#4
  | .orVxVy x y => formatXYN 0x8#4 x y 0x1#4
  | .andVxVy x y => formatXYN 0x8#4 x y 0x2#4
  | .xorVxVy x y => formatXYN 0x8#4 x y 0x3#4
  | .addVxVy x y => formatXYN 0x8#4 x y 0x4#4
  | .subVxVy x y => formatXYN 0x8#4 x y 0x5#4
  | .shrVx x => formatXYN 0x8#4 x 0 0x6#4
  | .subnVxVy x y => formatXYN 0x8#4 x y 0x7#4
  | .shlVx x => formatXYN 0x8#4 x 0 0xE#4
  | .sneVxVy x y => formatXYN 0x9#4 x y 0x0#4
  | .ldINnn nnn => formatA 0xA#4 nnn
  | .jpV0Nnn nnn => formatA 0xB#4 nnn
  | .rndVxKk x kk => formatXK 0xC#4 x kk
  | .drwVxVyN x y n => formatXYN 0xD#4 x y (BitVec.ofNat 4 n)
  | .skpVx x => formatXK 0xE#4 x 0x9E#8
  | .sknpVx x => formatXK 0xE#4 x 0xA1#8
  | .ldVxDt x => formatXK 0xF#4 x 0x07#8
  | .ldVxK x => formatXK 0xF#4 x 0x0A#8
  | .ldDtVx x => formatXK 0xF#4 x 0x15#8
  | .ldStVx x => formatXK 0xF#4 x 0x18#8
  | .addIVx x => formatXK 0xF#4 x 0x1E#8
  | .ldFVx x => formatXK 0xF#4 x 0x29#8
  | .ldBVx x => formatXK 0xF#4 x 0x33#8
  | .ldMemVx x => formatXK 0xF#4 x 0x55#8
  | .ldVxMem x => formatXK 0xF#4 x 0x65#8

/-- The high byte, stored at the lower address (20_memory.md R65). -/
def highByte (w : Word) : Byte := w.extractLsb' 8 8
/-- The low byte. -/
def lowByte (w : Word) : Byte := w.extractLsb' 0 8
/-- The two bytes of a word in the order they are stored. -/
def bytesOfWord (w : Word) : List Byte := [highByte w, lowByte w]

/-- The instruction as it is stored. -/
def encodeBytes (i : Instr) : List Byte := bytesOfWord (encode i)

/-! ### The opcode map (R96) as data -/

/-- One row of R96: a word w is the instruction of row `number` iff (w and mask) = pattern. -/
structure OpcodeRow where
  number : Nat
  pattern : Word
  mask : Word
deriving DecidableEq, Repr

/-- The columns "match" and "mask" of R96. -/
def opcodeMap : List OpcodeRow :=
  [⟨1, 0x00E0, 0xFFFF⟩, ⟨2, 0x00EE, 0xFFFF⟩, ⟨3, 0x1000, 0xF000⟩, ⟨4, 0x2000, 0xF000⟩, ⟨5, 0x3000, 0xF000⟩,
   ⟨6, 0x4000, 0xF000⟩, ⟨7, 0x5000, 0xF000⟩, ⟨8, 0x6000, 0xF000⟩, ⟨9, 0x7000, 0xF000⟩] ++
  [⟨10, 0x8000, 0xF00F⟩, ⟨11, 0x8001, 0xF00F⟩, ⟨12, 0x8002, 0xF00F⟩, ⟨13, 0x8003, 0xF00F⟩, ⟨14, 0x8004, 0xF00F⟩,
   ⟨15, 0x8005, 0xF00F⟩, ⟨16, 0x8006, 0xF00F⟩, ⟨17, 0x8007, 0xF00F⟩, ⟨18, 0x800E, 0xF00F⟩] ++
  [⟨19, 0x9000, 0xF000⟩, ⟨20, 0xA000, 0xF000⟩, ⟨21, 0xB000, 0xF000⟩, ⟨22, 0xC000, 0xF000⟩, ⟨23, 0xD000, 0xF000⟩] ++
  [⟨24, 0xE09E, 0xF0FF⟩, ⟨25, 0xE0A1, 0xF0FF⟩, ⟨26, 0xF007, 0xF0FF⟩, ⟨27, 0xF00A, 0xF0FF⟩, ⟨28, 0xF015, 0xF0FF⟩,
   ⟨29, 0xF018, 0xF0FF⟩, ⟨30, 0xF01E, 0xF0FF⟩, ⟨31, 0xF029, 0xF0FF⟩, ⟨32, 0xF033, 0xF0FF⟩, ⟨33, 0xF055, 0xF0FF⟩,
   ⟨34, 0xF065, 0xF0FF⟩]

/-- The row of R96 an instruction belongs to. -/
def Instr.row : Instr → Nat
  | .cls => 1
  | .ret => 2
  | .jpNnn _ => 3
  | .callNnn _ => 4
  | .seVxKk _ _ => 5
  | .sneVxKk _ _ => 6
  | .seVxVy _ _ => 7
  | .ldVxKk _ _ => 8
  | .addVxKk _ _ => 9
  | .ldVxVy _ _ => 10
  | .orVxVy _ _ => 11
  | .andVxVy _ _ => 12
  | .xorVxVy _ _ => 13
  | .addVxVy _ _ => 14
  | .subVxVy _ _ => 15
  | .shrVx _ => 16
  | .subnVxVy _ _ => 17
  | .shlVx _ => 18
  | .sneVxVy _ _ => 19
  | .ldINnn _ => 20
  | .jpV0Nnn _ => 21
  | .rndVxKk _ _ => 22
  | .drwVxVyN _ _ _ => 23
  | .skpVx _ => 24
  | .sknpVx _ => 25
  | .ldVxDt _ => 26
  | .ldVxK _ => 27
  | .ldDtVx _ => 28
  | .ldStVx _ => 29
  | .addIVx _ => 30
  | .ldFVx _ => 31
  | .ldBVx _ => 32
  | .ldMemVx _ => 33
  | .ldVxMem _ => 34

/-- The bits of a word that its instruction ignores (R98, R101). -/
def ignoredBits : Instr → Word
  | .seVxVy _ _ | .sneVxVy _ _ => 0x000F#16
  | .shrVx _ | .shlVx _ => 0x00F0#16
  | .cls | .ret | .jpNnn _ | .callNnn _ | .seVxKk _ _ | .sneVxKk _ _ | .ldVxKk _ _ | .addVxKk _ _ | .ldVxVy _ _
  | .orVxVy _ _ | .andVxVy _ _ | .xorVxVy _ _ | .addVxVy _ _ | .subVxVy _ _ | .subnVxVy _ _ | .ldINnn _ | .jpV0Nnn _
  | .rndVxKk _ _ | .drwVxVyN _ _ _ | .skpVx _ | .sknpVx _ | .ldVxDt _ | .ldVxK _ | .ldDtVx _ | .ldStVx _ | .addIVx _
  | .ldFVx _ | .ldBVx _ | .ldMemVx _ | .ldVxMem _ => 0x0000#16

/-! ### The host's view of the decoder -/

/-- The word whose bits spec/opcode_table.json numbers as `w`, of which the table gives the low `nbits`: the bits above are 0.
Every instruction is one 16-bit word, so the table's numbering is the word's own. -/
def tableWord (nbits w : Nat) : Word := BitVec.ofNat 16 (w % 2 ^ nbits)

/-- The instruction the decoder reads from the word with bits `w`, laid out in memory high byte first. -/
def decodeTableWord (nbits w : Nat) : Option Instr :=
  match decode (bytesOfWord (tableWord nbits w)) with
  | .ok (i, _) => some i
  | .error _ => none

end Sys2Proof
end

