-- ==== Sys2Proof/Config.lean ====
section
/-! DEFINITION. What the spec leaves to the implementation: the two open parameters of 00_scope.md R10 as plain data, the
default font table of 20_memory.md R64, and the free values, which have no body. -/

namespace Sys2Proof

/-- The 80 bytes of the font table, 16 glyphs of 5 bytes (20_memory.md R64). -/
abbrev Font := Vector Byte 80

/-- The open parameters of R10. They are fixed for one machine: no instruction and no host operation changes them.
DESIGN CHOICE (safe, log 3 and 4): the machine carries them in its state, so that a statement about every state holds for
every clock rate R10 allows and every font. -/
structure Config where
  /-- CLOCK_RATE less 60: R10 asks that CLOCK_RATE be at least 60, and no configuration holds a lower one. -/
  rateAbove60 : Nat
  /-- FONT, no constraint. -/
  font : Font
deriving DecidableEq, Repr

/-- CLOCK_RATE, a natural number of at least 60 (R10). -/
def Config.clockRate (c : Config) : Nat := c.rateAbove60 + 60

/-- P = floor(CLOCK_RATE / 60), the timer period in steps (R10, 40_step_dispatch.md R123). -/
def Config.period (c : Config) : Nat := c.clockRate / 60

/-- The table conventionally used with this instruction set (20_memory.md R64). PRESUMED (unsafe where a claim reads it,
log 4): the spec takes the bytes from general knowledge and no rule of the core depends on them. -/
def Config.defaultFont : Font :=
  #v[0xF0, 0x90, 0x90, 0x90, 0xF0,
     0x20, 0x60, 0x20, 0x20, 0x70,
     0xF0, 0x10, 0xF0, 0x80, 0xF0,
     0xF0, 0x10, 0xF0, 0x10, 0xF0,
     0x90, 0x90, 0xF0, 0x10, 0x10,
     0xF0, 0x80, 0xF0, 0x10, 0xF0,
     0xF0, 0x80, 0xF0, 0x90, 0xF0,
     0xF0, 0x10, 0x20, 0x40, 0x40,
     0xF0, 0x90, 0xF0, 0x90, 0xF0,
     0xF0, 0x90, 0xF0, 0x10, 0xF0,
     0xF0, 0x90, 0xF0, 0x90, 0x90,
     0xE0, 0x90, 0xE0, 0x90, 0xE0,
     0xF0, 0x80, 0x80, 0x80, 0xF0,
     0xE0, 0x90, 0x90, 0x90, 0xE0,
     0xF0, 0x80, 0xF0, 0x80, 0xF0,
     0xF0, 0x80, 0xF0, 0x80, 0x80]

/-- A free value: by how much the machine's CLOCK_RATE exceeds 60. The spec names no rate (R10, 92_eei_decisions.md D11), so
nothing here can evaluate it (log 3). -/
opaque Config.clockRateAbove60 : Nat

/-- A free value: the n-th random byte the environment supplies where the host has injected none (42_alu.md R172,
92_eei_decisions.md D25: any u8; log 8). -/
opaque Config.freeRandom : Nat → Byte

/-- The configuration of the machine after reset: a free clock rate of at least 60 and the default font (log 3, 4). -/
def Config.atReset : Config :=
  { rateAbove60 := Config.clockRateAbove60, font := Config.defaultFont }

end Sys2Proof
end

