-- ==== Sys2Proof/Machine/State.lean ====
section
/-! DEFINITION. The state of the core (10_state.md R20) with the model's own input and output fields, the state after reset
(70_reset_and_hazards.md R290), and the reasons a step can stop. -/

namespace Sys2Proof.Machine

/-- The four signals a step returns (40_step_dispatch.md R126). -/
inductive Signal where
  /-- NONE: nothing to do -/
  | none
  /-- REDRAW: the display may have changed -/
  | redraw
  /-- WAIT_KEY: deliver one key index before stepping again -/
  | waitKey
  /-- CRASH: the program faulted -/
  | crash
deriving DecidableEq, Repr

/-- The 2-bit code of a signal. DESIGN CHOICE of the spec (D2), safe: nothing in the machine reads it (log 2). -/
def Signal.code : Signal → BitVec 2
  | .none => 0
  | .redraw => 1
  | .waitKey => 2
  | .crash => 3

/-- DISP[px][py], column px 0 to 63 and row py 0 to 31 (10_state.md R40, 44_display.md R210). -/
abbrev Display := Vector (Vector Bool 32) 64

/-- The whole state. The first group is R20's list, the second the model's own fields (INVENTORY.md, log 2, 3, 4, 8, 9). -/
structure State where
  /-- MEM as the list of the bytes that differ from the image memory is constructed with (20_memory.md R62), addresses
  rising; read and written through Machine/Ops.lean only -/
  mem : List Host.Cell
  /-- V0 to VF, the general registers (R21) -/
  v : Vector Byte 16
  /-- I, the index register, below 4096 (R27, R30) -/
  i : Word
  /-- PC (R26) -/
  pc : Word
  /-- STACK[0..15] (R31) -/
  stack : Vector Word 16
  /-- SP, the number of live entries, 0 to 16 (R31) -/
  sp : Fin 17
  /-- DT, the delay timer (R33) -/
  dt : Byte
  /-- ST, the sound timer (R34) -/
  st : Byte
  /-- CYC, the internal cycle counter (R36) -/
  cyc : Nat
  /-- DISP (R40) -/
  disp : Display
  /-- KEYS[0..15], written by the host only (R38) -/
  keys : Vector Bool 16
  /-- WAIT, the register a key wait will write (R37) -/
  wait : Option Reg
  /-- the machine's open parameters (00_scope.md R10): fixed -/
  config : Config
  /-- the value on the step's signal output (R126): written by every step, read by none -/
  signal : Signal
  /-- the key indices the host has queued for delivery, one for each key wait, first to come first (45_timers_keys.md R240);
  read by the host's move `drive` of Machine/Driver.lean, by no step -/
  keyIn : List Reg
  /-- the random bytes the host has injected, first to be drawn first (00_scope.md R11, 42_alu.md R172) -/
  randomIn : List Byte
  /-- how many random bytes have been drawn: selects the free value where none was injected -/
  draws : Nat
deriving DecidableEq, Repr

/-- The state after construction with an empty program (R290, R291). PC, SP and the memory image are the spec's; the zeros of
V, I, DT, ST, CYC, DISP, KEYS and WAIT are DESIGN CHOICE (D8, D12; unsafe, log 5 and 6), and so are those of the unobservable
STACK (log 7) and of the model's own fields (log 2, 8, 9). -/
def State.reset : State :=
  { mem := []
    v := Vector.replicate 16 0x00#8
    i := 0x0000#16
    pc := 0x0200#16
    stack := Vector.replicate 16 0x0000#16
    sp := 0
    dt := 0x00#8
    st := 0x00#8
    cyc := 0
    disp := Vector.replicate 64 (Vector.replicate 32 false)
    keys := Vector.replicate 16 false
    wait := none
    config := Config.atReset
    signal := .none
    keyIn := []
    randomIn := []
    draws := 0 }

/-- The eight causes of CRASH (60_exceptions.md R252), the labels the spec's own (D29). Each carries the state the crash leaves
(40_step_dispatch.md R121, R127; 44_display.md R215), with CRASH on the signal output. A crash is terminal (R257, U2): no step
goes on from that state, so each of them is safe (log 1). -/
inductive Fault where
  /-- raised by the step: PC > 4094 (R121). Safe: the spec names the crash. -/
  | fetchOutOfBounds (left : State)
  /-- raised by the step: the fetched word matches no row of the opcode map (R99). Safe: the spec names the crash; which words
  they are rests on D6 and D7 (log 14, 15). -/
  | unrecognizedOpcode (left : State)
  /-- raised by CALL with SP = 16 (R141). Safe: the spec names the crash. -/
  | stackOverflow (left : State)
  /-- raised by RET with SP = 0 (R142). Safe: the spec names the crash. -/
  | stackUnderflow (left : State)
  /-- raised by SKP and SKNP with V[x] ≥ 16 (R233, R234). Safe: the spec names the crash. -/
  | invalidKeyIndex (left : State)
  /-- raised by LD F, Vx with V[x] ≥ 16 (R193). Safe: the spec names the crash. -/
  | invalidFontDigit (left : State)
  /-- raised by LD B, Vx, LD [I], Vx and LD Vx, [I] when the range passes 4095 (R194 to R196). Safe: the spec names the
  crash. -/
  | memoryOutOfBounds (left : State)
  /-- raised by DRW when a row to be read lies above 4095 (R215). Safe: the spec names the crash. -/
  | spriteOutOfBounds (left : State)
deriving DecidableEq, Repr

/-- The state a crash leaves. -/
def Fault.left : Fault → State
  | .fetchOutOfBounds s | .unrecognizedOpcode s | .stackOverflow s | .stackUnderflow s | .invalidKeyIndex s
  | .invalidFontDigit s | .memoryOutOfBounds s | .spriteOutOfBounds s => s

/-- The number of a crash's cause in R252's table (D29). The machine reports no cause (R253): only claims read it. -/
def Fault.cause : Fault → Nat
  | .fetchOutOfBounds _ => 1
  | .unrecognizedOpcode _ => 2
  | .stackOverflow _ => 3
  | .stackUnderflow _ => 4
  | .invalidKeyIndex _ => 5
  | .invalidFontDigit _ => 6
  | .memoryOutOfBounds _ => 7
  | .spriteOutOfBounds _ => 8

/-- What the model gives no meaning. -/
inductive Refusal where
  /-- raised by exec for an instruction without a meaning; none is left. Safe. -/
  | notModelled (mnemonic : String)
  /-- raised by the step whenever a key wait is pending: the spec has no step move while WAIT is set (40_step_dispatch.md R131,
  D22). Safe for the machine; it assumes the host keeps its contract (log 9). -/
  | stepWhileWaiting
  /-- raised by the host operation key_event when no key wait is pending: undefined in the spec (R240, D23). Safe (log 10). -/
  | keyEventOutsideWait
  /-- raised by the host operation key_event with a key index above 15: undefined in the spec (R240, D23). Safe (log 10). -/
  | keyIndexTooLarge
deriving DecidableEq, Repr

end Sys2Proof.Machine
end

