-- ==== Sys2Proof/Machine/Ops.lean ====
section
/-! DEFINITION. The named operations over memory, registers, stack, timers and inputs that every meaning is written with, and
the crash as one shared operation (00_scope.md R14). -/

namespace Sys2Proof.Machine

/-- What a meaning answers. -/
abbrev Result := Host.Outcome State Fault Refusal

/-! ### Memory as a list of cells (20_memory.md R60 to R63) -/

/-- What an address that is not listed reads as: the image memory is constructed with, the font at 0 to 79 and zero above
(R61, R62). The zeros after the program are DESIGN CHOICE (D9; unsafe, log 16). -/
def Memory.unlisted (font : Font) (a : Nat) : Byte := if h : a < 80 then font[a] else 0x00#8

/-- The byte at an address. -/
def Memory.read (font : Font) : List Host.Cell → Nat → Byte
  | [], a => Memory.unlisted font a
  | (b, u) :: rest, a => if a = b then u else Memory.read font rest a

/-- The bytes at `a`, `a + 1`, …, as many as asked for. -/
def Memory.readBytes (font : Font) (m : List Host.Cell) (a : Nat) : Nat → List Byte
  | 0 => []
  | n + 1 => Memory.read font m a :: Memory.readBytes font m (a + 1) n

/-- Put a cell in its place, replacing the cell of the same address. -/
def Memory.insert (a : Nat) (u : Byte) : List Host.Cell → List Host.Cell
  | [] => [(a, u)]
  | (b, w) :: rest =>
    if a < b then (a, u) :: (b, w) :: rest else if a = b then (a, u) :: rest else (b, w) :: Memory.insert a u rest

/-- Take an address out of the list. -/
def Memory.erase (a : Nat) : List Host.Cell → List Host.Cell
  | [] => []
  | (b, w) :: rest => if a = b then Memory.erase a rest else (b, w) :: Memory.erase a rest

/-- Write one byte. Writing what an unlisted address reads as takes the entry out. -/
def Memory.write (font : Font) (m : List Host.Cell) (a : Nat) (u : Byte) : List Host.Cell :=
  if u = Memory.unlisted font a then Memory.erase a m else Memory.insert a u m

/-- Write bytes at ascending addresses, in that order (R66). -/
def Memory.writeBytes (font : Font) (m : List Host.Cell) (a : Nat) : List Byte → List Host.Cell
  | [] => m
  | u :: rest => Memory.writeBytes font (Memory.write font m a u) (a + 1) rest

/-- The canonical form above an address: strictly rising, below 4096, nothing listed that reads as if it were not. -/
def Memory.wfFrom (font : Font) (lo : Nat) : List Host.Cell → Bool
  | [] => true
  | (b, u) :: rest => decide (lo ≤ b ∧ b < 4096 ∧ u ≠ Memory.unlisted font b) && Memory.wfFrom font (b + 1) rest

/-- The canonical form of memory. Equal memories in it are equal lists. -/
def Memory.wf (font : Font) (m : List Host.Cell) : Bool := Memory.wfFrom font 0 m

/-! ### One operation for each way the state changes -/

/-- The byte of MEM at an address below 4096. -/
def State.byte (s : State) (a : Nat) : Byte := Memory.read s.config.font s.mem a

/-- The bytes of MEM at `a`, `a + 1`, …, `n` of them. -/
def State.bytesAt (s : State) (a n : Nat) : List Byte := Memory.readBytes s.config.font s.mem a n

/-- Read `n` bytes from `a`, or `none` when one of them lies above 4095: the access is then not made (R70). -/
def State.load? (s : State) (a n : Nat) : Option (List Byte) :=
  if a + n ≤ 4096 then some (s.bytesAt a n) else none

/-- MEM with bytes written from `a` on. -/
def State.putBytes (s : State) (a : Nat) (bs : List Byte) : State :=
  { s with mem := Memory.writeBytes s.config.font s.mem a bs }

/-- Write bytes from `a` on, or `none` when one of them would lie above 4095: one range check before the first byte moves
(92_eei_decisions.md D27; log 22). -/
def State.store? (s : State) (a : Nat) (bs : List Byte) : Option State :=
  if a + bs.length ≤ 4096 then some (s.putBytes a bs) else none

/-- V[r] -/
def State.reg (s : State) (r : Reg) : Byte := s.v[r]

/-- V[r] <- u -/
def State.setReg (s : State) (r : Reg) (u : Byte) : State := { s with v := s.v.set r.val u r.isLt }

/-- Registers k, k+1, … of a register file filled with bytes, ascending. -/
def fillRegs (v : Vector Byte 16) (k : Nat) : List Byte → Vector Byte 16
  | [] => v
  | u :: rest => fillRegs (if h : k < 16 then v.set k u h else v) (k + 1) rest

/-- V[k], V[k+1], … <- the bytes, ascending (43_index_memory.md R196). -/
def State.setRegsFrom (s : State) (k : Nat) (bs : List Byte) : State := { s with v := fillRegs s.v k bs }

/-- I <- w -/
def State.setI (s : State) (w : Word) : State := { s with i := w }

/-- PC <- w -/
def State.setPc (s : State) (w : Word) : State := { s with pc := w }

/-- PC <- PC + k, in 16 bits; no reduction modulo 4096 (10_state.md R27, log 11). -/
def State.advance (s : State) (k : Word) : State := { s with pc := s.pc + k }

/-- DT <- u -/
def State.setDt (s : State) (u : Byte) : State := { s with dt := u }

/-- ST <- u -/
def State.setSt (s : State) (u : Byte) : State := { s with st := u }

/-- DISP <- d -/
def State.setDisp (s : State) (d : Display) : State := { s with disp := d }

/-- WAIT <- w -/
def State.setWait (s : State) (w : Option Reg) : State := { s with wait := w }

/-- The signal output. -/
def State.emit (s : State) (g : Signal) : State := { s with signal := g }

/-- STACK[SP] <- w; SP <- SP + 1, or `none` on a full stack (41_control_transfer.md R141). -/
def State.push? (s : State) (w : Word) : Option State :=
  if h : s.sp.val < 16 then
    some { s with stack := s.stack.set s.sp.val w h, sp := ⟨s.sp.val + 1, Nat.succ_lt_succ h⟩ }
  else none

/-- SP <- SP - 1 and the entry that was on top, or `none` on an empty stack (R142). The popped entry stays in STACK. -/
def State.pop? (s : State) : Option (Word × State) :=
  if h : 0 < s.sp.val then
    some (s.stack[s.sp.val - 1]'(by omega), { s with sp := ⟨s.sp.val - 1, by omega⟩ })
  else none

/-- The next random byte: the host's next injected one, or else a free value (42_alu.md R172, D25; log 8). -/
def State.randomByte (s : State) : Byte :=
  match s.randomIn with
  | r :: _ => r
  | [] => Config.freeRandom s.draws

/-- The input after one random byte has been consumed. -/
def State.drawn (s : State) : State := { s with randomIn := s.randomIn.tail, draws := s.draws + 1 }

/-! ### Endings -/

/-- The handler returns the signal `g` (40_step_dispatch.md R125). -/
def complete (g : Signal) (s : State) : Result := .next (s.emit g)

/-- `raise Crash(cause)` (00_scope.md R14, 60_exceptions.md R250): TAKING A FAULT on this hardware. It is reported and never
taken: no register is saved, no mode changes, control goes nowhere (R253, R255), and nothing returns from it (R256). `s` is the
state the crash leaves (R127). -/
def raise (cause : State → Fault) (s : State) : Result := .fault (cause (s.emit .crash))

/-! ### Parts of the step (40_step_dispatch.md R129) -/

/-- Fetch: the two bytes at PC, or `none` when either lies above 4095 (R121). No alignment is checked (20_memory.md R67,
log 13). -/
def State.fetch? (s : State) : Option (List Byte) := s.load? s.pc.toNat 2

/-- A timer on a step: a timer at 0 stays 0 (R123). -/
def tickTimer (due : Bool) (t : Byte) : Byte := if t = 0 then 0 else if due then t - 1 else t

/-- CYC has reached a multiple of P (R123). -/
def tickDue (c : Config) (cyc : Nat) : Bool := decide (cyc % c.period = 0)

/-- Items (b) and (c): CYC <- CYC + 1, then the tick test and the decrements (R122, R123). -/
def State.clock (s : State) : State :=
  { s with
    cyc := s.cyc + 1
    dt := tickTimer (tickDue s.config (s.cyc + 1)) s.dt
    st := tickTimer (tickDue s.config (s.cyc + 1)) s.st }

/-- Key event delivery (45_timers_keys.md R240): V[WAIT] <- k; WAIT <- none. Nothing else changes, KEYS included (D24). -/
def State.deliverKey (s : State) (x k : Reg) : State := (s.setReg x (BitVec.ofNat 8 k.val)).setWait none

/-- The address the next fetch is made from. Where PC lies above 4094 there is none, and a program loaded from outside starts at
0x200 (70_reset_and_hazards.md R292; log 17). -/
def State.fetchAddress (s : State) : Word := if s.pc.toNat ≤ 4094 then s.pc else 0x0200#16

/-- Bytes placed from outside where the next fetch reads them, with no key wait pending. -/
def State.placeAtFetch (s : State) (bs : List Byte) : State :=
  ((s.setPc s.fetchAddress).setWait none).putBytes s.fetchAddress.toNat bs

end Sys2Proof.Machine
end

