-- ==== Sys2Proof/Machine/Flags.lean ====
section
/-! DEFINITION. The flag computations. There is one flag, VF = V[15], and it is written with 0 or 1 (10_state.md R24, R25). -/

namespace Sys2Proof.Machine

/-- VF, the flag register. -/
def vf : Reg := 15

/-- The value a flag-writing instruction puts in VF. -/
def flagByte (b : Bool) : Byte := if b then 0x01#8 else 0x00#8

/-- Bit 8 of the 9-bit sum: the unsigned sum exceeded 255 (42_alu.md R166). -/
def carryOut (a b : Byte) : Bool := decide (255 < a.toNat + b.toNat)

/-- a - b needs no borrow (R167, R169). -/
def noBorrow (a b : Byte) : Bool := decide (b.toNat ≤ a.toNat)

/-- Bit 0, the bit a shift right loses (R168). -/
def lowBit (a : Byte) : Bool := a.getLsbD 0

/-- Bit 7, the bit a shift left loses (R170). -/
def highBit (a : Byte) : Bool := a.getLsbD 7

/-- VF <- 0 or 1 -/
def State.setFlag (s : State) (b : Bool) : State := s.setReg vf (flagByte b)

/-- Add, subtract and subtract-reversed: the result first, then the flag, so that with x = 15 the flag survives (R171; DESIGN
CHOICE of the spec, D17; unsafe, log 18). -/
def State.resultThenFlag (s : State) (x : Reg) (result : Byte) (flag : Bool) : State := (s.setReg x result).setFlag flag

/-- The shifts: the flag first, then V[x] is read again and shifted, so that with x = 15 the flag's own value is shifted
(R168, R170, R171; D17; unsafe, log 18). -/
def State.flagThenShiftRight (s : State) (x : Reg) : State :=
  let f := s.setFlag (lowBit (s.reg x))
  f.setReg x (f.reg x >>> 1)

/-- As `flagThenShiftRight`, to the left (R170). -/
def State.flagThenShiftLeft (s : State) (x : Reg) : State :=
  let f := s.setFlag (highBit (s.reg x))
  f.setReg x (f.reg x <<< 1)

end Sys2Proof.Machine
end

