-- ==== Sys2Proof/Machine/Operands.lean ====
section
/-! DEFINITION. The operand forms: how a field of the instruction becomes a value, an address or a list of bytes
(30_encoding.md R94, 43_index_memory.md R190). -/

namespace Sys2Proof.Machine

/-- zext_16 of an embedded address (R94). -/
def addrWord (nnn : Addr) : Word := nnn.setWidth 16

/-- zext_16 of a register's value. -/
def byteWord (u : Byte) : Word := u.setWidth 16

/-- The one addressing mode for data: I + k, without reduction (R190). -/
def State.effAddr (s : State) (k : Nat) : Nat := s.i.toNat + k

/-- I + u modulo 4096 (R192; 10_state.md R27). DESIGN CHOICE of the spec (D4; unsafe, log 12). -/
def indexPlus (i : Word) (u : Byte) : Word := BitVec.ofNat 16 ((i.toNat + u.toNat) % 4096)

/-- nnn + V[0], not reduced modulo 4096: at most 0x10FE (41_control_transfer.md R143). -/
def offsetTarget (nnn : Addr) (v0 : Byte) : Word := addrWord nnn + byteWord v0

/-- The address of the font glyph of a digit, 5 bytes a glyph from address 0 (R193). -/
def glyphAddress (digit : Byte) : Word := byteWord digit * 5

/-- Hundreds, tens and units of a byte, most significant first (R194, 20_memory.md R66). -/
def bcdDigits (u : Byte) : List Byte :=
  [BitVec.ofNat 8 (u.toNat / 100), BitVec.ofNat 8 (u.toNat / 10 % 10), BitVec.ofNat 8 (u.toNat % 10)]

/-- V[0] to V[x], ascending (R195). -/
def State.regsUpTo (s : State) (x : Reg) : List Byte := s.v.toList.take (x.val + 1)

/-- The key index a register holds, or `none` when its whole 8-bit value is 16 or more (45_timers_keys.md R233). -/
def keyIndex? (u : Byte) : Option Reg := if h : u.toNat < 16 then some ⟨u.toNat, h⟩ else none

end Sys2Proof.Machine
end

