-- ==== Sys2Proof/Machine/Alu.lean ====
section
/-! DEFINITION. Register and ALU instructions: 42_alu.md. All arithmetic is modulo 256 (R173); every one ends with
PC <- PC + 2 and NONE. -/

namespace Sys2Proof.Machine

/-- The common end of these instructions. -/
def aluDone (s : State) : Result := complete .none (s.advance 2)

/-- LD Vx, kk (R160). -/
def execLdVxKk (x : Reg) (kk : Byte) (s : State) : Result := aluDone (s.setReg x kk)

/-- ADD Vx, kk (R161): wraps, no flag. -/
def execAddVxKk (x : Reg) (kk : Byte) (s : State) : Result := aluDone (s.setReg x (s.reg x + kk))

/-- LD Vx, Vy (R162). -/
def execLdVxVy (x y : Reg) (s : State) : Result := aluDone (s.setReg x (s.reg y))

/-- OR Vx, Vy (R163): no flag (U7, log 23). -/
def execOrVxVy (x y : Reg) (s : State) : Result := aluDone (s.setReg x (s.reg x ||| s.reg y))

/-- AND Vx, Vy (R164): no flag (U7, log 23). -/
def execAndVxVy (x y : Reg) (s : State) : Result := aluDone (s.setReg x (s.reg x &&& s.reg y))

/-- XOR Vx, Vy (R165): no flag (U7, log 23). -/
def execXorVxVy (x y : Reg) (s : State) : Result := aluDone (s.setReg x (s.reg x ^^^ s.reg y))

/-- ADD Vx, Vy (R166): VF = carry. -/
def execAddVxVy (x y : Reg) (s : State) : Result :=
  aluDone (s.resultThenFlag x (s.reg x + s.reg y) (carryOut (s.reg x) (s.reg y)))

/-- SUB Vx, Vy (R167): VF = no borrow. -/
def execSubVxVy (x y : Reg) (s : State) : Result :=
  aluDone (s.resultThenFlag x (s.reg x - s.reg y) (noBorrow (s.reg x) (s.reg y)))

/-- SHR Vx (R168): VF = bit 0, then the shift. -/
def execShrVx (x : Reg) (s : State) : Result := aluDone (s.flagThenShiftRight x)

/-- SUBN Vx, Vy (R169): V[y] - V[x], VF = no borrow of it. -/
def execSubnVxVy (x y : Reg) (s : State) : Result :=
  aluDone (s.resultThenFlag x (s.reg y - s.reg x) (noBorrow (s.reg y) (s.reg x)))

/-- SHL Vx (R170): VF = bit 7, then the shift. -/
def execShlVx (x : Reg) (s : State) : Result := aluDone (s.flagThenShiftLeft x)

/-- RND Vx, kk (R172): consumes exactly one random byte. -/
def execRndVxKk (x : Reg) (kk : Byte) (s : State) : Result := aluDone (s.drawn.setReg x (kk &&& s.randomByte))

end Sys2Proof.Machine
end

