-- ==== Sys2Proof/Machine/Control.lean ====
section
/-! DEFINITION. Control transfer: 41_control_transfer.md. Each meaning is step (d) of R129, run with PC still at the
instruction. -/

namespace Sys2Proof.Machine

/-- The shared law of the skips: PC advances by 4 when the condition holds, else by 2 (R144). -/
def skipIf (c : Bool) (s : State) : Result := complete .none (s.advance (if c then 4 else 2))

/-- RET (R142): crash on an empty stack, else PC <- popped + 2. -/
def execRet (s : State) : Result :=
  match s.pop? with
  | some (w, t) => complete .none (t.setPc (w + 2))
  | none => raise .stackUnderflow s

/-- JP nnn (R140). -/
def execJpNnn (nnn : Addr) (s : State) : Result := complete .none (s.setPc (addrWord nnn))

/-- CALL nnn (R141): crash on a full stack, else push the address of this instruction. -/
def execCallNnn (nnn : Addr) (s : State) : Result :=
  match s.push? s.pc with
  | some t => complete .none (t.setPc (addrWord nnn))
  | none => raise .stackOverflow s

/-- JP V0, nnn (R143). -/
def execJpV0Nnn (nnn : Addr) (s : State) : Result := complete .none (s.setPc (offsetTarget nnn (s.reg 0)))

/-- SE Vx, kk (R144). -/
def execSeVxKk (x : Reg) (kk : Byte) (s : State) : Result := skipIf (s.reg x == kk) s

/-- SNE Vx, kk (R145). -/
def execSneVxKk (x : Reg) (kk : Byte) (s : State) : Result := skipIf (s.reg x != kk) s

/-- SE Vx, Vy (R146). -/
def execSeVxVy (x y : Reg) (s : State) : Result := skipIf (s.reg x == s.reg y) s

/-- SNE Vx, Vy (R147). -/
def execSneVxVy (x y : Reg) (s : State) : Result := skipIf (s.reg x != s.reg y) s

end Sys2Proof.Machine
end

