-- ==== Sys2Proof/Machine/Index.lean ====
section
/-! DEFINITION. Index register and memory instructions: 43_index_memory.md. None writes VF as a flag, and none moves I as a
side effect of an access (R190; U17, log 23). -/

namespace Sys2Proof.Machine

/-- The common end of these instructions when they do not crash. -/
def indexDone (s : State) : Result := complete .none (s.advance 2)

/-- Store bytes from I on, or crash with nothing stored (R194, R195; D27, log 22). -/
def storeAtIndex (bs : List Byte) (s : State) : Result :=
  match s.store? (s.effAddr 0) bs with
  | some t => indexDone t
  | none => raise .memoryOutOfBounds s

/-- LD I, nnn (R191). -/
def execLdINnn (nnn : Addr) (s : State) : Result := indexDone (s.setI (addrWord nnn))

/-- ADD I, Vx (R192): modulo 4096, no flag. -/
def execAddIVx (x : Reg) (s : State) : Result := indexDone (s.setI (indexPlus s.i (s.reg x)))

/-- LD F, Vx (R193): the whole 8-bit value is tested. -/
def execLdFVx (x : Reg) (s : State) : Result :=
  if (s.reg x).toNat < 16 then indexDone (s.setI (glyphAddress (s.reg x))) else raise .invalidFontDigit s

/-- LD B, Vx (R194): crash when I + 2 > 4095. -/
def execLdBVx (x : Reg) (s : State) : Result := storeAtIndex (bcdDigits (s.reg x)) s

/-- LD [I], Vx (R195): x + 1 bytes, crash when I + x > 4095. -/
def execLdMemVx (x : Reg) (s : State) : Result := storeAtIndex (s.regsUpTo x) s

/-- LD Vx, [I] (R196): x + 1 bytes, crash when I + x > 4095. -/
def execLdVxMem (x : Reg) (s : State) : Result :=
  match s.load? (s.effAddr 0) (x.val + 1) with
  | some bs => indexDone (s.setRegsFrom 0 bs)
  | none => raise .memoryOutOfBounds s

end Sys2Proof.Machine
end

