-- ==== Sys2Proof/Machine/Screen.lean ====
section
/-! DEFINITION. Display instructions, the sprite compositor and the collision detector: 44_display.md. Bit 7 of a sprite byte is
the leftmost pixel and the x-field register names the column: DESIGN CHOICE of the spec (D18, D19; unsafe, log 19). -/

namespace Sys2Proof.Machine

/-- DISP with every pixel clear (R211). -/
def Display.blank : Display := Vector.replicate 64 (Vector.replicate 32 false)

/-- DISP[px][py] (R210). -/
def Display.pixel (d : Display) (px : Fin 64) (py : Fin 32) : Bool := d[px][py]

/-- DISP[px][py] <- DISP[px][py] xor 1 (R212). -/
def Display.flip (d : Display) (px : Fin 64) (py : Fin 32) : Display :=
  d.set px.val ((d[px]).set py.val (!(d[px][py])) py.isLt) px.isLt

/-- The grid being composed and whether a set sprite bit has landed on a set pixel so far. -/
structure Canvas where
  disp : Display
  hit : Bool
deriving DecidableEq, Repr

/-- Wrap a column modulo 64 (R213). -/
def wrapColumn (n : Nat) : Fin 64 := ⟨n % 64, Nat.mod_lt n (by decide)⟩

/-- Wrap a row modulo 32 (R213). -/
def wrapRow (n : Nat) : Fin 32 := ⟨n % 32, Nat.mod_lt n (by decide)⟩

/-- One set sprite bit lands on a pixel (R212, R214). -/
def Canvas.land (c : Canvas) (px : Fin 64) (py : Fin 32) : Canvas :=
  { disp := c.disp.flip px py, hit := c.hit || c.disp.pixel px py }

/-- Columns `c`, `c + 1`, …, `k` of them, of one sprite row `b` whose left edge is column `xs`, onto row `py`: bit 7 - c is
column c. -/
def composeBits (b : Byte) (xs : Nat) (py : Fin 32) : Nat → Nat → Canvas → Canvas
  | 0, _, cv => cv
  | k + 1, c, cv =>
    composeBits b xs py k (c + 1) (if b.getLsbD (7 - c) then cv.land (wrapColumn (xs + c)) py else cv)

/-- One sprite row: its 8 pixels. -/
def composeRow (b : Byte) (xs : Nat) (py : Fin 32) (cv : Canvas) : Canvas := composeBits b xs py 8 0 cv

/-- Rows `r`, `r + 1`, …, `k` of them, each checked before it is read (R215). `ok` when all were composed, `error` with what
was composed when a row lies above 4095. -/
def composeRows (s : State) (xs ys : Nat) : Nat → Nat → Canvas → Except Canvas Canvas
  | 0, _, cv => .ok cv
  | k + 1, r, cv =>
    if s.effAddr r ≤ 4095 then
      composeRows s xs ys k (r + 1) (composeRow (s.byte (s.effAddr r)) xs (wrapRow (ys + r)) cv)
    else .error cv

/-- CLS (R211): REDRAW even if nothing changes. -/
def execCls (s : State) : Result := complete .redraw ((s.setDisp Display.blank).advance 2)

/-- DRW Vx, Vy, n (R212 to R217): the coordinates are read before VF is written (D31, log 21); a sprite crash keeps the rows
composed so far and writes no VF (R215, D15; log 1). -/
def execDrwVxVyN (x y : Reg) (n : Nat) (s : State) : Result :=
  match composeRows s (s.reg x).toNat (s.reg y).toNat n 0 { disp := s.disp, hit := false } with
  | .ok cv => complete .redraw (((s.setDisp cv.disp).setFlag cv.hit).advance 2)
  | .error cv => raise .spriteOutOfBounds (s.setDisp cv.disp)

end Sys2Proof.Machine
end

