-- ==== Sys2Proof/Machine/Timers.lean ====
section
/-! DEFINITION. Timer and key instructions: 45_timers_keys.md. None writes VF as a flag. -/

namespace Sys2Proof.Machine

/-- The shared law of the key skips: crash when the whole value of V[x] is 16 or more, else skip when KEYS[V[x]] is `want`
(R233, R234). -/
def keySkip (want : Bool) (x : Reg) (s : State) : Result :=
  match keyIndex? (s.reg x) with
  | some k => skipIf (s.keys[k] == want) s
  | none => raise .invalidKeyIndex s

/-- SKP Vx (R233). -/
def execSkpVx (x : Reg) (s : State) : Result := keySkip true x s

/-- SKNP Vx (R234). -/
def execSknpVx (x : Reg) (s : State) : Result := keySkip false x s

/-- LD Vx, DT (R230). -/
def execLdVxDt (x : Reg) (s : State) : Result := complete .none ((s.setReg x s.dt).advance 2)

/-- LD Vx, K (R235): WAIT <- x and PC already advanced; V[x] is written later, by the key event. -/
def execLdVxK (x : Reg) (s : State) : Result := complete .waitKey ((s.setWait (some x)).advance 2)

/-- LD DT, Vx (R231). -/
def execLdDtVx (x : Reg) (s : State) : Result := complete .none ((s.setDt (s.reg x)).advance 2)

/-- LD ST, Vx (R232). -/
def execLdStVx (x : Reg) (s : State) : Result := complete .none ((s.setSt (s.reg x)).advance 2)

end Sys2Proof.Machine
end

