-- ==== Sys2Proof/Machine/Step.lean ====
section
/-! DEFINITION. One step of the machine (40_step_dispatch.md R129), and the placing of an instruction where the next step
fetches it. -/

namespace Sys2Proof.Machine

/-- While a key wait is pending there is no step (R131, D22; log 9). Otherwise: fetch, or crash with nothing changed
(R121); then the cycle counter and the tick (R122, R123); then the handler of the decoded instruction, or the crash of an
unrecognized word (R124, R99). -/
def step (s : State) : Host.Outcome State Fault Refusal :=
  match s.wait with
  | some _ => .refused .stepWhileWaiting
  | none =>
    match s.fetch? with
    | none => raise .fetchOutOfBounds s
    | some bytes =>
      match decode bytes with
      | .error _ => raise .unrecognizedOpcode s.clock
      | .ok (i, _) => exec i s.clock

/-- `s` with the word of bits `w`, numbered as spec/opcode_table.json numbers them, stored where the next step fetches
(log 17). -/
def State.withFetchWord (s : State) (nbits w : Nat) : State := s.placeAtFetch (bytesOfWord (tableWord nbits w))

end Sys2Proof.Machine
end

