-- ==== Sys2Proof/Machine/Driver.lean ====
section
/-! DEFINITION. The host's side of the boundary: every operation of the host table (60_exceptions.md R270), and runs in which
the host's operations and the core's steps are mixed. The host writes KEYS and nothing else of the core (R272, D30; log 24). -/

namespace Sys2Proof.Machine

/-- Why construction gives no core (60_exceptions.md R275): not the CRASH signal. -/
inductive ConstructError where
  /-- the program has more than 3584 bytes (70_reset_and_hazards.md R291, D10) -/
  | programTooLarge
deriving DecidableEq, Repr

/-- construct(program) (R290, R291): the state after reset with the program at 0x200, for a machine with the given parameters. -/
def construct (config : Config) (program : List Byte) : Except ConstructError State :=
  if program.length ≤ 3584 then .ok ({ State.reset with config := config }.putBytes 0x200 program)
  else .error .programTooLarge

/-- key_event(k) (45_timers_keys.md R240), defined only while a key wait is pending and for k of 0 to 15; otherwise the spec gives
no move (D23; log 10). -/
def keyEvent (k : Nat) (s : State) : Result :=
  match s.wait with
  | none => .refused .keyEventOutsideWait
  | some x => if h : k < 16 then .next (s.deliverKey x ⟨k, h⟩) else .refused .keyIndexTooLarge

/-- The host queues one more key index to deliver (the model's own input field; log 9). -/
def State.queueKey (s : State) (k : Reg) : State := { s with keyIn := s.keyIn ++ [k] }

/-- The move of a host that keeps its contract (60_exceptions.md R270, 40_step_dispatch.md R131): with a key wait pending it
delivers its next queued key by key_event, and otherwise it calls step(). With a wait pending and no key queued it has no move
but a step, which is refused. -/
def drive (s : State) : Result :=
  match s.wait, s.keyIn with
  | some _, k :: rest => keyEvent k.val { s with keyIn := rest }
  | _, _ => step s

/-- The host writes KEYS[k], at any time between operations (10_state.md R38). -/
def State.writeKey (s : State) (k : Reg) (pressed : Bool) : State := { s with keys := s.keys.set k.val pressed k.isLt }

/-- The host injects one more random byte (00_scope.md R11). -/
def State.injectRandom (s : State) (u : Byte) : State := { s with randomIn := s.randomIn ++ [u] }

/-- The display read port (44_display.md R216). Column 0 is the left edge and row 0 the top (D20). -/
def State.readPixel (s : State) (px : Fin 64) (py : Fin 32) : Bool := Display.pixel s.disp px py

/-- The sound flag: true whenever the sound timer is nonzero (45_timers_keys.md R241). -/
def State.soundFlag (s : State) : Bool := s.st != 0

/-- The delay timer as the host reads it (R237). -/
def State.readDelayTimer (s : State) : Byte := s.dt

/-- The sound timer as the host reads it (R237). -/
def State.readSoundTimer (s : State) : Byte := s.st

/-- One operation at the boundary that can change the state (R270), and the two of the model's own input queue (log 9). -/
inductive Move where
  /-- the host calls step() -/
  | step
  /-- the host calls key_event(k) -/
  | keyEvent (k : Nat)
  /-- the host writes KEYS[k] -/
  | writeKey (k : Reg) (pressed : Bool)
  /-- the host injects a random byte -/
  | injectRandom (u : Byte)
  /-- the host queues a key index -/
  | queueKey (k : Reg)
  /-- the host makes the move its contract asks for -/
  | drive
deriving DecidableEq, Repr

/-- What one operation does. -/
def Move.apply : Move → State → Result
  | .step, s => Machine.step s
  | .keyEvent k, s => Machine.keyEvent k s
  | .writeKey k pressed, s => .next (s.writeKey k pressed)
  | .injectRandom u, s => .next (s.injectRandom u)
  | .queueKey k, s => .next (s.queueKey k)
  | .drive, s => Machine.drive s

/-- A run: operations one after the other, ending at the first crash (R257) or refusal. -/
def play : List Move → State → Result
  | [], s => .next s
  | m :: rest, s =>
    match m.apply s with
    | .next t => play rest t
    | .fault f => .fault f
    | .refused r => .refused r

end Sys2Proof.Machine
end

