-- ==== Sys2Proof/Safety.lean ====
section
/-! DEFINITION. The terms the claims are written in: the invariant of the machine, what an instruction may change and what a run
may reach, and the words for "this instruction". -/

namespace Sys2Proof.Machine

/-- The invariant of every state a run can reach (10_state.md R43, R27, R28, R31; 00_scope.md R10). -/
structure State.Inv (s : State) : Prop where
  /-- memory is in canonical form -/
  memory : Memory.wf s.config.font s.mem = true
  /-- I is below 4096 (R27) -/
  index : s.i.toNat < 4096
  /-- PC is at most 0x10FE (R28) -/
  counter : s.pc.toNat ≤ 0x10FE
  /-- every live stack entry is an address at which a fetch succeeded (R142) -/
  live : ∀ j : Fin 16, j.val < s.sp.val → s.stack[j].toNat ≤ 4094
  /-- CLOCK_RATE is at least 60 (R10): no configuration holds a lower one -/
  rate : 60 ≤ s.config.clockRate

/-- The address a transfer of control loads into PC (10_state.md R29: the only ones that can be odd), as the meaning computes it;
`none` for every other instruction. -/
def loadedTarget : Instr → State → Option Nat
  | .jpNnn nnn, _ | .callNnn nnn, _ => some nnn.toNat
  | .jpV0Nnn nnn, s => some (nnn.toNat + (s.reg 0).toNat)
  | .cls, _ | .ret, _ | .seVxKk _ _, _ | .sneVxKk _ _, _ | .seVxVy _ _, _ | .ldVxKk _ _, _ | .addVxKk _ _, _ | .ldVxVy _ _, _
  | .orVxVy _ _, _ | .andVxVy _ _, _ | .xorVxVy _ _, _ | .addVxVy _ _, _ | .subVxVy _ _, _ | .shrVx _, _ | .subnVxVy _ _, _
  | .shlVx _, _ | .sneVxVy _ _, _ | .ldINnn _, _ | .rndVxKk _ _, _ | .drwVxVyN _ _ _, _ | .skpVx _, _ | .sknpVx _, _
  | .ldVxDt _, _ | .ldVxK _, _ | .ldDtVx _, _ | .ldStVx _, _ | .addIVx _, _ | .ldFVx _, _ | .ldBVx _, _ | .ldMemVx _, _
  | .ldVxMem _, _ => none

/-- PC and every live stack entry are even (10_state.md R29). -/
structure State.AllEven (s : State) : Prop where
  counter : s.pc.toNat % 2 = 0
  live : ∀ j : Fin 16, j.val < s.sp.val → s.stack[j].toNat % 2 = 0

/-- What an operation may write, beside PC and the signal output. -/
structure Footprint where
  /-- general registers -/
  regs : List Reg := []
  /-- I -/
  index : Bool := false
  /-- STACK and SP -/
  stack : Bool := false
  /-- DT -/
  delay : Bool := false
  /-- ST -/
  sound : Bool := false
  /-- DISP -/
  display : Bool := false
  /-- WAIT -/
  wait : Bool := false
  /-- the random input -/
  random : Bool := false
  /-- the first address stored to -/
  storeFrom : Nat := 0
  /-- how many bytes are stored -/
  storeLen : Nat := 0
deriving DecidableEq, Repr

/-- FRAME: from `s` to `t` nothing outside the footprint changed but PC and the signal output. Memory is compared byte by byte. -/
structure Frame (fp : Footprint) (s t : State) : Prop where
  regs : ∀ r, r ∉ fp.regs → t.reg r = s.reg r
  index : fp.index = false → t.i = s.i
  stack : fp.stack = false → t.stack = s.stack ∧ t.sp = s.sp
  delay : fp.delay = false → t.dt = s.dt
  sound : fp.sound = false → t.st = s.st
  display : fp.display = false → t.disp = s.disp
  wait : fp.wait = false → t.wait = s.wait
  random : fp.random = false → t.randomIn = s.randomIn ∧ t.draws = s.draws
  bytes : ∀ a, ¬(fp.storeFrom ≤ a ∧ a < fp.storeFrom + fp.storeLen) → t.byte a = s.byte a
  cycle : t.cyc = s.cyc
  keys : t.keys = s.keys
  keyIn : t.keyIn = s.keyIn
  config : t.config = s.config

/-- What each instruction may write when it completes (10_state.md R20, R25, R30; 20_memory.md R68), the address of a store
computed as the meaning computes it. -/
def footprint : Instr → State → Footprint
  | .cls, _ => { display := true }
  | .ret, _ => { stack := true }
  | .callNnn _, _ => { stack := true }
  | .jpNnn _, _ | .jpV0Nnn _, _ | .seVxKk _ _, _ | .sneVxKk _ _, _ | .seVxVy _ _, _ | .sneVxVy _ _, _ => {}
  | .skpVx _, _ | .sknpVx _, _ => {}
  | .ldVxKk x _, _ | .addVxKk x _, _ | .ldVxVy x _, _ | .orVxVy x _, _ | .andVxVy x _, _ | .xorVxVy x _, _ => { regs := [x] }
  | .addVxVy x _, _ | .subVxVy x _, _ | .shrVx x, _ | .subnVxVy x _, _ | .shlVx x, _ => { regs := [x, vf] }
  | .rndVxKk x _, _ => { regs := [x], random := true }
  | .ldINnn _, _ | .addIVx _, _ | .ldFVx _, _ => { index := true }
  | .drwVxVyN _ _ _, _ => { regs := [vf], display := true }
  | .ldVxDt x, _ => { regs := [x] }
  | .ldVxK _, _ => { wait := true }
  | .ldDtVx _, _ => { delay := true }
  | .ldStVx _, _ => { sound := true }
  | .ldBVx _, s => { storeFrom := s.effAddr 0, storeLen := 3 }
  | .ldMemVx x, s => { storeFrom := s.effAddr 0, storeLen := x.val + 1 }
  | .ldVxMem x, _ => { regs := (List.finRange 16).filter (fun r => decide (r ≤ x)) }

/-- The signal an instruction returns when it completes (40_step_dispatch.md R126). -/
def completionSignal : Instr → Signal
  | .cls | .drwVxVyN _ _ _ => .redraw
  | .ldVxK _ => .waitKey
  | .ret | .jpNnn _ | .callNnn _ | .seVxKk _ _ | .sneVxKk _ _ | .seVxVy _ _ | .ldVxKk _ _ | .addVxKk _ _ | .ldVxVy _ _
  | .orVxVy _ _ | .andVxVy _ _ | .xorVxVy _ _ | .addVxVy _ _ | .subVxVy _ _ | .shrVx _ | .subnVxVy _ _ | .shlVx _
  | .sneVxVy _ _ | .ldINnn _ | .jpV0Nnn _ | .rndVxKk _ _ | .skpVx _ | .sknpVx _ | .ldVxDt _ | .ldDtVx _ | .ldStVx _
  | .addIVx _ | .ldFVx _ | .ldBVx _ | .ldMemVx _ | .ldVxMem _ => .none

/-- When the handler of an instruction crashes (60_exceptions.md R252, causes 3 to 8), in the terms of the rules. -/
def CrashesOn : Instr → State → Prop
  | .callNnn _, s => s.sp.val = 16
  | .ret, s => s.sp.val = 0
  | .skpVx x, s | .sknpVx x, s | .ldFVx x, s => 16 ≤ (s.reg x).toNat
  | .ldBVx _, s => 4095 < s.i.toNat + 2
  | .ldMemVx x, s | .ldVxMem x, s => 4095 < s.i.toNat + x.val
  | .drwVxVyN _ _ n, s => ∃ r, r < n ∧ 4095 < s.i.toNat + r
  | .cls, _ | .jpNnn _, _ | .seVxKk _ _, _ | .sneVxKk _ _, _ | .seVxVy _ _, _ | .ldVxKk _ _, _ | .addVxKk _ _, _
  | .ldVxVy _ _, _ | .orVxVy _ _, _ | .andVxVy _ _, _ | .xorVxVy _ _, _ | .addVxVy _ _, _ | .subVxVy _ _, _ | .shrVx _, _
  | .subnVxVy _ _, _ | .shlVx _, _ | .sneVxVy _ _, _ | .ldINnn _, _ | .jpV0Nnn _, _ | .rndVxKk _ _, _ | .ldVxDt _, _
  | .ldVxK _, _ | .ldDtVx _, _ | .ldStVx _, _ | .addIVx _, _ => False

/-- The cause an instruction's handler can crash with (60_exceptions.md R252); 0 for an instruction that never crashes. -/
def handlerCause : Instr → Nat
  | .callNnn _ => 3
  | .ret => 4
  | .skpVx _ | .sknpVx _ => 5
  | .ldFVx _ => 6
  | .ldBVx _ | .ldMemVx _ | .ldVxMem _ => 7
  | .drwVxVyN _ _ _ => 8
  | .cls | .jpNnn _ | .seVxKk _ _ | .sneVxKk _ _ | .seVxVy _ _ | .ldVxKk _ _ | .addVxKk _ _ | .ldVxVy _ _ | .orVxVy _ _
  | .andVxVy _ _ | .xorVxVy _ _ | .addVxVy _ _ | .subVxVy _ _ | .shrVx _ | .subnVxVy _ _ | .shlVx _ | .sneVxVy _ _
  | .ldINnn _ | .jpV0Nnn _ | .rndVxKk _ _ | .ldVxDt _ | .ldVxK _ | .ldDtVx _ | .ldStVx _ | .addIVx _ => 0

/-- A set bit of the n-row sprite at I lands on pixel (px, py) when it is drawn at column xs, row ys (44_display.md R212,
R214). -/
def SpriteSets (s : State) (xs ys n : Nat) (px : Fin 64) (py : Fin 32) : Prop :=
  ∃ r c, r < n ∧ c < 8 ∧ (xs + c) % 64 = px.val ∧ (ys + r) % 32 = py.val ∧
    (s.byte (s.i.toNat + r)).getLsbD (7 - c) = true

/-- The next step of `s` fetches the instruction `i`: no key wait is pending and the two bytes at PC decode to it. -/
structure Fetches (s : State) (i : Instr) : Prop where
  noWait : s.wait = none
  inMemory : s.pc.toNat + 1 ≤ 4095
  decoded : decodeWord (wordOfBytes (s.byte s.pc.toNat) (s.byte (s.pc.toNat + 1))) = some i

/-- Two states that differ only in stack entries at or above SP, which nothing can observe (10_state.md R31). -/
structure SameButStale (s t : State) : Prop where
  live : ∀ j : Fin 16, j.val < s.sp.val → t.stack[j] = s.stack[j]
  rest : t = { s with stack := t.stack }

/-- Two states that differ only in DISP (44_display.md R210). -/
def SameButDisplay (s t : State) : Prop := t = { s with disp := t.disp }

/-- The same ending, up to a relation between the states. -/
def SameEnding (related : State → State → Prop) : Result → Result → Prop
  | .next s, .next t => related s t
  | .fault f, .fault g => f.cause = g.cause ∧ related f.left g.left
  | .refused p, .refused q => p = q
  | _, _ => False

/-- The states a machine with these parameters can reach from a program by any operations of the core and the host. -/
def Reachable (config : Config) (program : List Byte) (s : State) : Prop :=
  ∃ s₀ moves, construct config program = .ok s₀ ∧ play moves s₀ = .next s

end Sys2Proof.Machine
end

