-- ==== Sys2Proof/Certificates/Slice0/Obligations.lean ====
section
/-! DEFINITION. The statements for the provers. Each docstring names the rules of spec/ it formalises; where a clause rests on a
decision of the spec or of the model, the docstring says which. -/

open Sys2Proof Sys2Proof.Machine

/-! ### Encoding -/

/-- Eleven words written out bit by bit from the patterns of 30_encoding.md R96 decode to the instruction they stand for, and
0x0000 to none. The secondary codes and field places are the spec's from general knowledge (GK1, GK2; log 19, 20); that 0x8AB6 is
SHR with its y field ignored is D6 (log 14), and that 0x0000 is no instruction D7 (log 15). -/
def Obligations.SampleWordsDecodeAsThePatternsSay : Prop :=
  decodeWord 0b0000000011100000#16 = some .cls ∧
  decodeWord 0b0000000011101110#16 = some .ret ∧
  decodeWord 0b0010001000000100#16 = some (.callNnn 0x204) ∧
  decodeWord 0b0011101001111111#16 = some (.seVxKk 10 0x7F) ∧
  decodeWord 0b0110000000001010#16 = some (.ldVxKk 0 0x0A) ∧
  decodeWord 0b1000101010110111#16 = some (.subnVxVy 10 11) ∧
  decodeWord 0b1000101010110110#16 = some (.shrVx 10) ∧
  decodeWord 0b1101000100101111#16 = some (.drwVxVyN 1 2 15) ∧
  decodeWord 0b1110001010011110#16 = some (.skpVx 2) ∧
  decodeWord 0b1111001000001010#16 = some (.ldVxK 2) ∧
  decodeWord 0b1111100001010101#16 = some (.ldMemVx 8) ∧
  decodeWord 0b0000000000000000#16 = none

/-- Decoding an encoded well-formed instruction gives it back, with every operand and with whatever bytes follow it
(30_encoding.md, sections 2 and 4). -/
def Obligations.EncodedInstructionDecodesBack : Prop :=
  ∀ (i : Instr) (rest : List Byte), i.wellFormed = true → decode (encodeBytes i ++ rest) = .ok (i, rest)

/-- Every word the decoder recognizes is the encoding of a well-formed instruction but for the bits that instruction ignores
(30_encoding.md, section 5; D6, log 14). -/
def Obligations.DecodedWordIsItsEncodingButForIgnoredBits : Prop :=
  ∀ (w : Word) (i : Instr), decodeWord w = some i → i.wellFormed = true ∧ encode i = w &&& ~~~(ignoredBits i)

/-- The decoder reads a word as the instruction of a row of the opcode map exactly when (w and mask) = match for that row, and no
word matches two rows (30_encoding.md, section 4; the masks are D6, log 14). -/
def Obligations.DecoderAgreesWithTheOpcodeMap : Prop :=
  (∀ row ∈ opcodeMap, ∀ w : Word, (∃ i, decodeWord w = some i ∧ i.row = row.number) ↔ w &&& row.mask = row.pattern) ∧
  (∀ row ∈ opcodeMap, ∀ row' ∈ opcodeMap, ∀ w : Word,
    w &&& row.mask = row.pattern → w &&& row'.mask = row'.pattern → row = row')

/-- The words the decoder does not recognize are exactly those of the four lines of 30_encoding.md, section 6 (D6 and D7, log 14
and 15). -/
def Obligations.UnrecognizedWordsAreTheListedOnes : Prop :=
  ∀ w : Word, decodeWord w = none ↔
    (fieldTop w = 0x0#4 ∧ w ≠ 0x00E0#16 ∧ w ≠ 0x00EE#16) ∨
    (fieldTop w = 0x8#4 ∧ (fieldN w).toNat ∈ [0x8, 0x9, 0xA, 0xB, 0xC, 0xD, 0xF]) ∨
    (fieldTop w = 0xE#4 ∧ (fieldKk w).toNat ∉ [0x9E, 0xA1]) ∨
    (fieldTop w = 0xF#4 ∧ (fieldKk w).toNat ∉ [0x07, 0x0A, 0x15, 0x18, 0x1E, 0x29, 0x33, 0x55, 0x65])

/-! ### The step -/

/-- The step of a state whose bytes at PC decode to `i` is the handler of `i`, run after the cycle count and the tick; an
unrecognized word has the crash UnrecognizedOpcode for its handler (40_step_dispatch.md, section 1). -/
def Obligations.StepRunsTheDecodedInstruction : Prop :=
  (∀ (s : State) (i : Instr), Fetches s i → step s = exec i s.clock) ∧
  (∀ s : State, s.wait = none → s.pc.toNat + 1 ≤ 4095 →
    decodeWord (wordOfBytes (s.byte s.pc.toNat) (s.byte (s.pc.toNat + 1))) = none →
    step s = .fault (.unrecognizedOpcode { s.clock with signal := .crash }))

/-- A fetch with either byte above 4095 crashes (40_step_dispatch.md, R121); that it leaves everything as it was is the spec's
decision D13 (log 1). -/
def Obligations.FetchOutsideMemoryCrashes : Prop :=
  ∀ s : State, s.wait = none → 4094 < s.pc.toNat → step s = .fault (.fetchOutOfBounds { s with signal := .crash })

/-- R122: CYC goes up by one in every step whose fetch succeeded, whatever the word is and whether or not its handler crashes. -/
def Obligations.EveryFetchedStepCountsOneCycle : Prop :=
  ∀ s : State, s.wait = none → s.pc.toNat ≤ 4094 →
    (∀ t, step s = .next t → t.cyc = s.cyc + 1) ∧ (∀ f, step s = .fault f → f.left.cyc = s.cyc + 1)

/-- Over n runs of items (b) and (c) of the step (`State.clock`), each timer goes down by one for each multiple of P that CYC
passes, and never below zero; and a step that fetches an instruction other than LD DT, Vx leaves DT as (b) and (c) leave it, and
so for ST and LD ST, Vx (40_step_dispatch.md, section 1, with P as D11 reads it, log 3). -/
def Obligations.TimersCountDownOnceEveryPeriod : Prop :=
  (∀ (s : State) (n : Nat),
    (State.clock^[n] s).cyc = s.cyc + n ∧
    (State.clock^[n] s).dt.toNat =
      s.dt.toNat - ((s.cyc + n) / (s.config.clockRate / 60) - s.cyc / (s.config.clockRate / 60)) ∧
    (State.clock^[n] s).st.toNat =
      s.st.toNat - ((s.cyc + n) / (s.config.clockRate / 60) - s.cyc / (s.config.clockRate / 60))) ∧
  (∀ (s t : State) (i : Instr), Fetches s i → step s = .next t →
    ((∀ x, i ≠ .ldDtVx x) → t.dt = s.clock.dt) ∧ ((∀ x, i ≠ .ldStVx x) → t.st = s.clock.st))

/-- On a step that ticks, LD Vx, DT reads the timer already decremented, and a timer written by LD DT, Vx or LD ST, Vx keeps the
written value (40_step_dispatch.md, section 4). -/
def Obligations.TheTickComesBeforeTheHandler : Prop :=
  ∀ (s : State) (x : Reg), (s.cyc + 1) % (s.config.clockRate / 60) = 0 →
    (Fetches s (.ldVxDt x) → ∃ t, step s = .next t ∧ (t.reg x).toNat = s.dt.toNat - 1 ∧ t.dt.toNat = s.dt.toNat - 1) ∧
    (Fetches s (.ldDtVx x) → ∃ t, step s = .next t ∧ t.dt = s.reg x ∧ t.st.toNat = s.st.toNat - 1) ∧
    (Fetches s (.ldStVx x) → ∃ t, step s = .next t ∧ t.st = s.reg x ∧ t.dt.toNat = s.dt.toNat - 1)

/-- A handler of any instruction but draw that crashes has changed nothing (40_step_dispatch.md, section 3; D14, log 1). -/
def Obligations.HandlerCrashChangesNothing : Prop :=
  ∀ (i : Instr) (s : State) (f : Fault), (∀ x y n, i ≠ .drwVxVyN x y n) → exec i s = .fault f →
    f.left = { s with signal := .crash }

/-- A sprite crash leaves what a draw of only the rows inside memory would have composed, and VF, PC and everything else as they
were (44_display.md, R215; D15, log 1). -/
def Obligations.SpriteCrashKeepsTheRowsInsideMemory : Prop :=
  ∀ (x y : Reg) (n : Nat) (s : State) (f : Fault), s.i.toNat < 4096 → exec (.drwVxVyN x y n) s = .fault f →
    ∃ t, exec (.drwVxVyN x y (4096 - s.i.toNat)) s = .next t ∧
      f = .spriteOutOfBounds { s with disp := t.disp, signal := .crash }

/-- A step crashes exactly for the causes of the table of 60_exceptions.md R252, under exactly their conditions; the numbers are
the spec's labels (D29). -/
def Obligations.StepCrashesExactlyForTheListedCauses : Prop :=
  ∀ s : State, s.wait = none →
    ((∃ f, step s = .fault f ∧ f.cause = 1) ↔ 4094 < s.pc.toNat) ∧
    ((∃ f, step s = .fault f ∧ f.cause = 2) ↔
      s.pc.toNat ≤ 4094 ∧ decodeWord (wordOfBytes (s.byte s.pc.toNat) (s.byte (s.pc.toNat + 1))) = none) ∧
    (∀ c, 3 ≤ c → ((∃ f, step s = .fault f ∧ f.cause = c) ↔ ∃ i, Fetches s i ∧ CrashesOn i s ∧ handlerCause i = c))

/-- No instruction is refused, and a step is refused exactly while a key wait is pending, whatever the host has queued
(40_step_dispatch.md, R131; the spec's D22, log 9). -/
def Obligations.StepIsRefusedOnlyWhileAwaitingAKey : Prop :=
  (∀ (i : Instr) (s : State) (r : Refusal), exec i s ≠ .refused r) ∧
  (∀ (s : State) (r : Refusal), step s = .refused r ↔ r = .stepWhileWaiting ∧ s.wait.isSome = true)

/-- The core keeps no record of the last signal: no step reads it (10_state.md, R39; D16, log 2). -/
def Obligations.TheStepIgnoresTheLastSignal : Prop :=
  ∀ (s : State) (g : Signal), s.wait = none → step { s with signal := g } = step s

/-- A completed clear-display or draw returns REDRAW, a completed wait-for-key WAIT_KEY, every other completed instruction NONE, and
every crash CRASH, that of a handler and that of a step, a failed fetch and an unrecognized opcode included (40_step_dispatch.md,
section 2; the signal is the model's output field, log 2). -/
def Obligations.EachInstructionReturnsItsSignal : Prop :=
  (∀ (i : Instr) (s : State),
    (∀ t, exec i s = .next t → t.signal = completionSignal i) ∧ (∀ f, exec i s = .fault f → f.left.signal = .crash)) ∧
  (∀ (i : Instr) (s t : State), Fetches s i → step s = .next t → t.signal = completionSignal i) ∧
  (∀ (s : State) (f : Fault), step s = .fault f → f.left.signal = .crash)

/-! ### Invariants -/

/-- From every state that meets the invariant a step gives one that meets it: memory in canonical form (the model's memory, log 16),
I below 4096 (add-to-index wraps by the spec's D4, log 12), PC at most 0x10FE (never reduced modulo 4096, D3, log 11), live stack
entries at most 4094, CLOCK_RATE at least 60, which every configuration has (10_state.md, sections 4, 5 and 10). -/
def Obligations.EveryStepKeepsTheInvariant : Prop :=
  ∀ s t : State, s.Inv → step s = .next t → t.Inv

/-- The state after reset meets the invariant. PC = 0x200 and the empty stack are the spec's (70_reset_and_hazards.md, section 1);
I = 0 is the spec's choice D8 (log 5), CLOCK_RATE a free value of at least 60 (log 3), the empty memory list the model's (log 16). -/
def Obligations.ResetMeetsTheInvariant : Prop := State.reset.Inv

/-- Every state that any sequence of steps and host operations reaches from any program that can be constructed meets the
invariant (10_state.md, section 10). As in `EveryStepKeepsTheInvariant` the bound on I is D4 (log 12) and the form of memory the
model's (log 16); construction starts from I = 0 (D8, log 5); and that the host writes KEYS and nothing else of the core is D30
(log 24). -/
def Obligations.EveryReachableStateMeetsTheInvariant : Prop :=
  ∀ (config : Config) (program : List Byte) (s : State), Reachable config program s → s.Inv

/-- PC and the live stack entries are even after reset, and a step keeps them even, unless the jump, call or jump-with-offset it
runs loads an odd target (10_state.md, R29; that evenness is no hardware check is D5, log 13). -/
def Obligations.PcStaysEvenButForJumpTargets : Prop :=
  State.reset.AllEven ∧
  ∀ s t : State, s.AllEven → step s = .next t → (∀ i a, Fetches s i → loadedTarget i s = some a → a % 2 = 0) → t.AllEven

/-- Construction succeeds exactly for a program of at most 3584 bytes (D10). Then every field is as the column "value after
construction" of 70_reset_and_hazards.md R290 has it: memory is the font, zeros, the program at 0x200 and zeros (20_memory.md R62;
the zeros after the program are D9, log 16), PC = 0x200, the stack is empty, and V, I, DT, ST, CYC, DISP, KEYS and WAIT are zero,
false or none (D8, D12; log 5, 6); the model's own fields are as after reset (log 2, 7, 8, 9). -/
def Obligations.ConstructionGivesTheInitialImage : Prop :=
  ∀ (config : Config) (program : List Byte),
    (3584 < program.length → construct config program = .error .programTooLarge) ∧
    (program.length ≤ 3584 → ∃ s, construct config program = .ok s ∧
      (∀ a, a < 4096 → s.byte a =
        (if h : a < 80 then config.font[a] else if 0x200 ≤ a then program.getD (a - 0x200) 0 else 0)) ∧
      s.pc.toNat = 0x200 ∧ s.sp.val = 0 ∧ (∀ r, s.reg r = 0) ∧ s.i = 0 ∧ s.dt = 0 ∧ s.st = 0 ∧ s.soundFlag = false ∧
      s.cyc = 0 ∧ (∀ px py, s.readPixel px py = false) ∧ (∀ k : Reg, s.keys[k] = false) ∧ s.wait = none ∧
      s = { State.reset with config := config, mem := s.mem })

/-- Two memories in canonical form that read the same at every address are the same list (the model's memory, log 16). -/
def Obligations.EqualCanonicalMemoriesAreEqualLists : Prop :=
  ∀ (font : Font) (m m' : List Host.Cell), Memory.wf font m = true → Memory.wf font m' = true →
    (∀ a, Memory.read font m a = Memory.read font m' a) → m = m'

/-! ### What instructions leave unchanged -/

/-- FRAME of every instruction: when it completes, only PC, the signal output and what its footprint names may have changed; every
byte of memory outside the bytes it stores reads as before (10_state.md, section 1; 20_memory.md, section 4). That or, and, xor
leave VF and register-dump and register-load leave I is the spec's reading of the source's silence (U7, U17; log 23). -/
def Obligations.EveryInstructionStaysInsideItsFootprint : Prop :=
  ∀ (i : Instr) (s t : State), exec i s = .next t → Frame (footprint i s) s t

/-- Only clear-display and draw change DISP, and no instruction but draw ends differently for a different DISP
(44_display.md, R210). -/
def Obligations.OnlyDrawAndClearTouchTheDisplay : Prop :=
  (∀ s t : State, step s = .next t → t.disp ≠ s.disp → Fetches s .cls ∨ ∃ x y n, Fetches s (.drwVxVyN x y n)) ∧
  (∀ (i : Instr) (s t : State), (∀ x y n, i ≠ .drwVxVyN x y n) → SameButDisplay s t →
    SameEnding SameButDisplay (exec i s) (exec i t))

/-- Stack entries at or above SP are observed by nothing: two states that differ only in them step to endings that differ only in
them (10_state.md, R31; D26, log 7). -/
def Obligations.StaleStackEntriesAreUnobservable : Prop :=
  ∀ s t : State, SameButStale s t → SameEnding SameButStale (step s) (step t)

/-- An instruction writes VF only if it is one of the six flag writers or names VF as its destination, and a flag writer whose
destination is a register other than VF (for draw: every one) leaves 0 or 1 there (10_state.md, R24 and R25). That or, and, xor
write no flag is the spec's reading of the source's silence (U7, log 23); what the others leave in VF when it is their destination
is D17 (log 18), which `FlagWritersWithDestinationVf` states. -/
def Obligations.OnlyFlagWritersTouchVf : Prop :=
  ∀ (i : Instr) (s t : State), exec i s = .next t →
    ((i.row ∉ [14, 15, 16, 17, 18, 23] ∧ vf ∉ (footprint i s).regs) → t.reg vf = s.reg vf) ∧
    ((∃ x y, x ≠ vf ∧ (i = .addVxVy x y ∨ i = .subVxVy x y ∨ i = .subnVxVy x y ∨ i = .shrVx x ∨ i = .shlVx x)) →
      t.reg vf = 0 ∨ t.reg vf = 1) ∧
    ((∃ x y n, i = .drwVxVyN x y n) → t.reg vf = 0 ∨ t.reg vf = 1)

/-- A step never changes the key array or the machine's parameters (10_state.md, R38; 00_scope.md, R10), and changes I only in
set-index, add-to-index and set-index-to-font (R30). That register-dump and register-load leave I is the spec's reading of the
source's silence (U17, log 23). A key event is no step; that it leaves KEYS too is D24, which `KeyEventEndsTheWait` states. -/
def Obligations.StepKeepsKeysParametersAndIndex : Prop :=
  ∀ s t : State, step s = .next t → t.keys = s.keys ∧ t.config = s.config ∧
    (t.i ≠ s.i → ∃ nnn x, Fetches s (.ldINnn nnn) ∨ Fetches s (.addIVx x) ∨ Fetches s (.ldFVx x))

/-! ### Control transfer -/

/-- R140: jump. -/
def Obligations.JumpLoadsItsAddress : Prop :=
  ∀ (nnn : Addr) (s : State), ∃ t, exec (.jpNnn nnn) s = .next t ∧ t.pc.toNat = nnn.toNat ∧ t.signal = .none ∧ Frame {} s t

/-- Jump-with-offset adds V0 (41_control_transfer.md, section 2); that the sum is not reduced modulo 4096 is the spec's decision D3
(log 11). -/
def Obligations.JumpWithOffsetAddsV0 : Prop :=
  ∀ (nnn : Addr) (s : State), ∃ t, exec (.jpV0Nnn nnn) s = .next t ∧ t.pc.toNat = nnn.toNat + (s.reg 0).toNat ∧
    t.signal = .none ∧ Frame {} s t

/-- Call pushes its own address, or crashes on a full stack (41_control_transfer.md, section 3) with nothing changed (D14, log 1). -/
def Obligations.CallPushesItsOwnAddress : Prop :=
  ∀ (nnn : Addr) (s : State),
    (s.sp.val = 16 → exec (.callNnn nnn) s = .fault (.stackOverflow { s with signal := .crash })) ∧
    (∀ h : s.sp.val < 16, ∃ t, exec (.callNnn nnn) s = .next t ∧ t.stack = s.stack.set s.sp.val s.pc h ∧
      t.sp.val = s.sp.val + 1 ∧ t.pc.toNat = nnn.toNat ∧ t.signal = .none ∧ Frame { stack := true } s t)

/-- Return goes to the popped address plus 2, or crashes on an empty stack (41_control_transfer.md, section 3) with nothing changed
(D14, log 1). -/
def Obligations.ReturnGoesPastThePoppedAddress : Prop :=
  ∀ s : State,
    (s.sp.val = 0 → exec .ret s = .fault (.stackUnderflow { s with signal := .crash })) ∧
    (∀ j : Fin 16, s.sp.val = j.val + 1 → ∃ t, exec .ret s = .next t ∧ t.pc = s.stack[j] + 2 ∧ t.sp.val = j.val ∧
      t.stack = s.stack ∧ t.signal = .none ∧ Frame { stack := true } s t)

/-- A call and then a return resume at the instruction after the call with the stack as it was, at every depth below 16
(41_control_transfer.md, section 3). -/
def Obligations.CallThenReturnResumesAfterTheCall : Prop :=
  ∀ (nnn : Addr) (s : State), s.sp.val < 16 → ∃ t u, exec (.callNnn nnn) s = .next t ∧ exec .ret t = .next u ∧
    u.pc = s.pc + 2 ∧ u.sp = s.sp ∧ (∀ j : Fin 16, j.val < s.sp.val → u.stack[j] = s.stack[j]) ∧ Frame { stack := true } s u

/-- R144 and R145: the skips on an immediate. -/
def Obligations.ImmediateSkipsCompareARegister : Prop :=
  ∀ (x : Reg) (kk : Byte) (s : State),
    (∃ t, exec (.seVxKk x kk) s = .next t ∧ t.pc = s.pc + (if s.reg x = kk then 4 else 2) ∧ t.signal = .none ∧
      Frame {} s t) ∧
    (∃ t, exec (.sneVxKk x kk) s = .next t ∧ t.pc = s.pc + (if s.reg x ≠ kk then 4 else 2) ∧ t.signal = .none ∧
      Frame {} s t)

/-- The skips on two registers (41_control_transfer.md, section 4). -/
def Obligations.RegisterSkipsCompareTwoRegisters : Prop :=
  ∀ (x y : Reg) (s : State),
    (∃ t, exec (.seVxVy x y) s = .next t ∧ t.pc = s.pc + (if s.reg x = s.reg y then 4 else 2) ∧ t.signal = .none ∧
      Frame {} s t) ∧
    (∃ t, exec (.sneVxVy x y) s = .next t ∧ t.pc = s.pc + (if s.reg x ≠ s.reg y then 4 else 2) ∧ t.signal = .none ∧
      Frame {} s t)

/-! ### Registers and arithmetic -/

/-- R160: load immediate. -/
def Obligations.LoadImmediateSetsTheRegister : Prop :=
  ∀ (x : Reg) (kk : Byte) (s : State), ∃ t, exec (.ldVxKk x kk) s = .next t ∧ t.reg x = kk ∧ t.pc = s.pc + 2 ∧
    t.signal = .none ∧ Frame { regs := [x] } s t

/-- R161: add immediate wraps and writes no flag. -/
def Obligations.AddImmediateWrapsWithoutAFlag : Prop :=
  ∀ (x : Reg) (kk : Byte) (s : State), ∃ t, exec (.addVxKk x kk) s = .next t ∧
    (t.reg x).toNat = ((s.reg x).toNat + kk.toNat) % 256 ∧ t.pc = s.pc + 2 ∧ t.signal = .none ∧ Frame { regs := [x] } s t

/-- R162: assign. -/
def Obligations.AssignCopiesARegister : Prop :=
  ∀ (x y : Reg) (s : State), ∃ t, exec (.ldVxVy x y) s = .next t ∧ t.reg x = s.reg y ∧ t.pc = s.pc + 2 ∧
    t.signal = .none ∧ Frame { regs := [x] } s t

/-- Or, and, xor act bit by bit, and write no flag unless VF is their destination (42_alu.md, section 3; that VF is left alone is
the spec's reading of the source's silence, U7, log 23). -/
def Obligations.BitwiseOperationsWriteNoFlag : Prop :=
  ∀ (x y : Reg) (s : State),
    (∃ t, exec (.orVxVy x y) s = .next t ∧ (∀ b, (t.reg x).getLsbD b = ((s.reg x).getLsbD b || (s.reg y).getLsbD b)) ∧
      t.pc = s.pc + 2 ∧ t.signal = .none ∧ Frame { regs := [x] } s t) ∧
    (∃ t, exec (.andVxVy x y) s = .next t ∧ (∀ b, (t.reg x).getLsbD b = ((s.reg x).getLsbD b && (s.reg y).getLsbD b)) ∧
      t.pc = s.pc + 2 ∧ t.signal = .none ∧ Frame { regs := [x] } s t) ∧
    (∃ t, exec (.xorVxVy x y) s = .next t ∧ (∀ b, (t.reg x).getLsbD b = ((s.reg x).getLsbD b ^^ (s.reg y).getLsbD b)) ∧
      t.pc = s.pc + 2 ∧ t.signal = .none ∧ Frame { regs := [x] } s t)

/-- The operation of 42_alu.md R166, for every destination but VF, which `FlagWritersWithDestinationVf` states. -/
def Obligations.AddRegistersSetsTheCarry : Prop :=
  ∀ (x y : Reg) (s : State), x ≠ vf → ∃ t, exec (.addVxVy x y) s = .next t ∧
    (t.reg x).toNat = ((s.reg x).toNat + (s.reg y).toNat) % 256 ∧
    t.reg vf = (if 256 ≤ (s.reg x).toNat + (s.reg y).toNat then 1 else 0) ∧ t.pc = s.pc + 2 ∧ t.signal = .none ∧
    Frame { regs := [x, vf] } s t

/-- The operation of 42_alu.md R167, for every destination but VF, which `FlagWritersWithDestinationVf` states. -/
def Obligations.SubtractSetsNoBorrow : Prop :=
  ∀ (x y : Reg) (s : State), x ≠ vf → ∃ t, exec (.subVxVy x y) s = .next t ∧
    ((t.reg x).toNat : Int) = ((s.reg x).toNat - (s.reg y).toNat : Int) % 256 ∧
    t.reg vf = (if (s.reg x).toNat < (s.reg y).toNat then 0 else 1) ∧ t.pc = s.pc + 2 ∧ t.signal = .none ∧
    Frame { regs := [x, vf] } s t

/-- The operation of 42_alu.md R169, for every destination but VF, which `FlagWritersWithDestinationVf` states. -/
def Obligations.SubtractReversedSetsNoBorrow : Prop :=
  ∀ (x y : Reg) (s : State), x ≠ vf → ∃ t, exec (.subnVxVy x y) s = .next t ∧
    ((t.reg x).toNat : Int) = ((s.reg y).toNat - (s.reg x).toNat : Int) % 256 ∧
    t.reg vf = (if (s.reg y).toNat < (s.reg x).toNat then 0 else 1) ∧ t.pc = s.pc + 2 ∧ t.signal = .none ∧
    Frame { regs := [x, vf] } s t

/-- The operation of 42_alu.md R168, for every destination but VF, which `FlagWritersWithDestinationVf` states. -/
def Obligations.ShiftRightKeepsTheLostBit : Prop :=
  ∀ (x : Reg) (s : State), x ≠ vf → ∃ t, exec (.shrVx x) s = .next t ∧
    (t.reg x).toNat = (s.reg x).toNat / 2 ∧ (t.reg vf).toNat = (s.reg x).toNat % 2 ∧ t.pc = s.pc + 2 ∧
    t.signal = .none ∧ Frame { regs := [x, vf] } s t

/-- The operation of 42_alu.md R170, for every destination but VF, which `FlagWritersWithDestinationVf` states. -/
def Obligations.ShiftLeftKeepsTheLostBit : Prop :=
  ∀ (x : Reg) (s : State), x ≠ vf → ∃ t, exec (.shlVx x) s = .next t ∧
    (t.reg x).toNat = 2 * (s.reg x).toNat % 256 ∧ (t.reg vf).toNat = (s.reg x).toNat / 128 ∧ t.pc = s.pc + 2 ∧
    t.signal = .none ∧ Frame { regs := [x, vf] } s t

/-- The five flag-writing operations whose destination is VF itself, as the table of R171 has them: the spec's decision D17
(log 18). -/
def Obligations.FlagWritersWithDestinationVf : Prop :=
  ∀ (y : Reg) (s : State),
    (∃ t, exec (.addVxVy vf y) s = .next t ∧ t.reg vf = (if 256 ≤ (s.reg vf).toNat + (s.reg y).toNat then 1 else 0) ∧
      t.pc = s.pc + 2 ∧ t.signal = .none ∧ Frame { regs := [vf] } s t) ∧
    (∃ t, exec (.subVxVy vf y) s = .next t ∧ t.reg vf = (if (s.reg vf).toNat < (s.reg y).toNat then 0 else 1) ∧
      t.pc = s.pc + 2 ∧ t.signal = .none ∧ Frame { regs := [vf] } s t) ∧
    (∃ t, exec (.subnVxVy vf y) s = .next t ∧ t.reg vf = (if (s.reg y).toNat < (s.reg vf).toNat then 0 else 1) ∧
      t.pc = s.pc + 2 ∧ t.signal = .none ∧ Frame { regs := [vf] } s t) ∧
    (∃ t, exec (.shrVx vf) s = .next t ∧ t.reg vf = 0 ∧ t.pc = s.pc + 2 ∧ t.signal = .none ∧
      Frame { regs := [vf] } s t) ∧
    (∃ t, exec (.shlVx vf) s = .next t ∧ t.reg vf = (if (s.reg vf).toNat < 0x80 then 0 else 2) ∧ t.pc = s.pc + 2 ∧
      t.signal = .none ∧ Frame { regs := [vf] } s t)

/-- Random masks one byte of the environment: the host's next injected one, which it consumes, or, where there is none, some byte
nothing constrains (42_alu.md, section 4; D25, the model's log 8). -/
def Obligations.RandomMasksOneFreshByte : Prop :=
  ∀ (x : Reg) (kk : Byte) (s : State), ∃ (t : State) (r : Byte), exec (.rndVxKk x kk) s = .next t ∧
    (∀ b, (t.reg x).getLsbD b = (kk.getLsbD b && r.getLsbD b)) ∧
    (∀ r' rest, s.randomIn = r' :: rest → r = r' ∧ t.randomIn = rest) ∧ (s.randomIn = [] → t.randomIn = []) ∧
    t.draws = s.draws + 1 ∧ t.pc = s.pc + 2 ∧ t.signal = .none ∧ Frame { regs := [x], random := true } s t

/-! ### Index register and memory -/

/-- R191: set index. -/
def Obligations.SetIndexLoadsItsAddress : Prop :=
  ∀ (nnn : Addr) (s : State), ∃ t, exec (.ldINnn nnn) s = .next t ∧ t.i.toNat = nnn.toNat ∧ t.pc = s.pc + 2 ∧
    t.signal = .none ∧ Frame { index := true } s t

/-- Add-to-index is modulo 4096 (the spec's D4, log 12) and writes no flag (43_index_memory.md, section 2). -/
def Obligations.AddToIndexWrapsAt4096 : Prop :=
  ∀ (x : Reg) (s : State), ∃ t, exec (.addIVx x) s = .next t ∧ t.i.toNat = (s.i.toNat + (s.reg x).toNat) % 4096 ∧
    t.pc = s.pc + 2 ∧ t.signal = .none ∧ Frame { index := true } s t

/-- Set-index-to-font, with its crash for a value of 16 or more (43_index_memory.md, section 2), which changes nothing (D14,
log 1). -/
def Obligations.SetIndexToFontPointsAtTheGlyph : Prop :=
  ∀ (x : Reg) (s : State),
    (16 ≤ (s.reg x).toNat → exec (.ldFVx x) s = .fault (.invalidFontDigit { s with signal := .crash })) ∧
    ((s.reg x).toNat < 16 → ∃ t, exec (.ldFVx x) s = .next t ∧ t.i.toNat = 5 * (s.reg x).toNat ∧ t.pc = s.pc + 2 ∧
      t.signal = .none ∧ Frame { index := true } s t)

/-- Store-BCD stores the three digits at I, I + 1, I + 2 and nothing else, or crashes when I + 2 is above 4095
(43_index_memory.md, section 3; that nothing is stored then is D27, log 22). -/
def Obligations.StoreBcdWritesThreeDigits : Prop :=
  ∀ (x : Reg) (s : State),
    (4095 < s.i.toNat + 2 → exec (.ldBVx x) s = .fault (.memoryOutOfBounds { s with signal := .crash })) ∧
    (s.i.toNat + 2 ≤ 4095 → ∃ t, exec (.ldBVx x) s = .next t ∧
      (t.byte s.i.toNat).toNat = (s.reg x).toNat / 100 ∧
      (t.byte (s.i.toNat + 1)).toNat = (s.reg x).toNat / 10 % 10 ∧
      (t.byte (s.i.toNat + 2)).toNat = (s.reg x).toNat % 10 ∧ t.pc = s.pc + 2 ∧ t.signal = .none ∧
      Frame { storeFrom := s.effAddr 0, storeLen := 3 } s t)

/-- Register-dump stores V[0] to V[x] from I on and nothing else, or crashes when I + x is above 4095 (43_index_memory.md,
section 3; that nothing is stored then is D27, log 22; that I stays is U17, log 23). -/
def Obligations.RegisterDumpStoresTheRegisters : Prop :=
  ∀ (x : Reg) (s : State),
    (4095 < s.i.toNat + x.val → exec (.ldMemVx x) s = .fault (.memoryOutOfBounds { s with signal := .crash })) ∧
    (s.i.toNat + x.val ≤ 4095 → ∃ t, exec (.ldMemVx x) s = .next t ∧
      (∀ r : Reg, r ≤ x → t.byte (s.i.toNat + r.val) = s.reg r) ∧ t.pc = s.pc + 2 ∧ t.signal = .none ∧
      Frame { storeFrom := s.effAddr 0, storeLen := x.val + 1 } s t)

/-- Register-load loads V[0] to V[x] from I on and leaves memory, I and the registers above x, or crashes when I + x is above 4095
(43_index_memory.md, section 4; that nothing is loaded then is D27, log 22; that I stays is U17, log 23). -/
def Obligations.RegisterLoadFillsTheRegisters : Prop :=
  ∀ (x : Reg) (s : State),
    (4095 < s.i.toNat + x.val → exec (.ldVxMem x) s = .fault (.memoryOutOfBounds { s with signal := .crash })) ∧
    (s.i.toNat + x.val ≤ 4095 → ∃ t, exec (.ldVxMem x) s = .next t ∧
      (∀ r : Reg, r ≤ x → t.reg r = s.byte (s.i.toNat + r.val)) ∧ (∀ r : Reg, x < r → t.reg r = s.reg r) ∧
      t.pc = s.pc + 2 ∧ t.signal = .none ∧ Frame { regs := (List.finRange 16).filter (fun r => decide (r ≤ x)) } s t)

/-- Register-load is the inverse of register-dump (43_index_memory.md, section 4): after a dump, a load of the same x from any state
with the memory and the I the dump left gives the dumped registers back. What a dump stores is R195 (section 3); that it leaves I,
so that the load starts where the dump did, is the spec's reading of the source's silence (R190, section 1; U17, log 23). -/
def Obligations.RegisterLoadInvertsRegisterDump : Prop :=
  ∀ (x : Reg) (s t u : State), exec (.ldMemVx x) s = .next t → u.mem = t.mem → u.config = t.config → u.i = t.i →
    ∃ w, exec (.ldVxMem x) u = .next w ∧ ∀ r : Reg, r ≤ x → w.reg r = s.reg r

/-! ### Display -/

/-- R211: clear-display. -/
def Obligations.ClearDisplayClearsEveryPixel : Prop :=
  ∀ s : State, ∃ t, exec .cls s = .next t ∧ (∀ px py, t.readPixel px py = false) ∧ t.pc = s.pc + 2 ∧ t.signal = .redraw ∧
    Frame { display := true } s t

/-- Draw flips exactly the pixels a set sprite bit lands on, wrapped on both axes, and VF tells whether one of them was set before
(44_display.md, section 3). Bit 7 leftmost, the x field as the column and the case of VF as a coordinate are the spec's D18, D19
and D31 (log 19, 21). -/
def Obligations.DrawXorsTheSpriteAndFlagsCollision : Prop :=
  ∀ (x y : Reg) (n : Nat) (s : State), (Instr.drwVxVyN x y n).wellFormed = true → (∀ r, r < n → s.i.toNat + r ≤ 4095) →
    ∃ t, exec (.drwVxVyN x y n) s = .next t ∧
      (∀ px py, SpriteSets s (s.reg x).toNat (s.reg y).toNat n px py → t.readPixel px py = !(s.readPixel px py)) ∧
      (∀ px py, ¬SpriteSets s (s.reg x).toNat (s.reg y).toNat n px py → t.readPixel px py = s.readPixel px py) ∧
      ((∃ px py, SpriteSets s (s.reg x).toNat (s.reg y).toNat n px py ∧ s.readPixel px py = true) → t.reg vf = 1) ∧
      ((∀ px py, SpriteSets s (s.reg x).toNat (s.reg y).toNat n px py → s.readPixel px py = false) → t.reg vf = 0) ∧
      t.pc = s.pc + 2 ∧ t.signal = .redraw ∧ Frame { regs := [vf], display := true } s t

/-! ### Timers and keys -/

/-- R230, R231 and R232: the timer instructions. The timers are independent (10_state.md R35). -/
def Obligations.TimerInstructionsMoveAByte : Prop :=
  ∀ (x : Reg) (s : State),
    (∃ t, exec (.ldVxDt x) s = .next t ∧ t.reg x = s.dt ∧ t.pc = s.pc + 2 ∧ t.signal = .none ∧
      Frame { regs := [x] } s t) ∧
    (∃ t, exec (.ldDtVx x) s = .next t ∧ t.dt = s.reg x ∧ t.pc = s.pc + 2 ∧ t.signal = .none ∧
      Frame { delay := true } s t) ∧
    (∃ t, exec (.ldStVx x) s = .next t ∧ t.st = s.reg x ∧ t.soundFlag = decide (s.reg x ≠ 0) ∧ t.pc = s.pc + 2 ∧
      t.signal = .none ∧ Frame { sound := true } s t)

/-- The key skips, with their crash for a key index of 16 or more (45_timers_keys.md, section 2), which changes nothing (D14,
log 1). -/
def Obligations.KeySkipsSampleTheKeyArray : Prop :=
  ∀ (x : Reg) (s : State),
    (16 ≤ (s.reg x).toNat → exec (.skpVx x) s = .fault (.invalidKeyIndex { s with signal := .crash }) ∧
      exec (.sknpVx x) s = .fault (.invalidKeyIndex { s with signal := .crash })) ∧
    (∀ k : Reg, (s.reg x).toNat = k.val →
      (∃ t, exec (.skpVx x) s = .next t ∧ t.pc = s.pc + (if s.keys[k] = true then 4 else 2) ∧ t.signal = .none ∧
        Frame {} s t) ∧
      (∃ t, exec (.sknpVx x) s = .next t ∧ t.pc = s.pc + (if s.keys[k] = true then 2 else 4) ∧ t.signal = .none ∧
        Frame {} s t))

/-- Wait-for-key (45_timers_keys.md, section 3) records its register, advances PC and returns WAIT_KEY; V[x] and KEYS stay. -/
def Obligations.WaitForKeyRecordsItsRegister : Prop :=
  ∀ (x : Reg) (s : State), ∃ t, exec (.ldVxK x) s = .next t ∧ t.wait = some x ∧ t.pc = s.pc + 2 ∧ t.signal = .waitKey ∧
    Frame { wait := true } s t

/-- Key event delivery writes the waiting register, ends the wait and changes nothing else; outside its precondition it has no
meaning (45_timers_keys.md, section 3; D23, D24; log 10). While a wait is pending a step is refused (D22), and the move of a host
that keeps its contract delivers the next key it has queued (the model's log 9). -/
def Obligations.KeyEventEndsTheWait : Prop :=
  ∀ (s : State) (x k : Reg) (rest : List Reg), s.wait = some x →
    (∃ t, keyEvent k.val s = .next t ∧ t.reg x = BitVec.ofNat 8 k.val ∧ t.wait = none ∧ t.pc = s.pc ∧
      t.signal = s.signal ∧ Frame { regs := [x], wait := true } s t) ∧
    (∀ n, 16 ≤ n → keyEvent n s = .refused .keyIndexTooLarge) ∧
    (∀ n, keyEvent n { s with wait := none } = .refused .keyEventOutsideWait) ∧
    step s = .refused .stepWhileWaiting ∧
    (s.keyIn = k :: rest → ∃ t, keyEvent k.val s = .next t ∧ drive s = .next { t with keyIn := rest })
end

