-- ==== Sys2Proof/Laws/Decode.lean ====
section
/-! SUPPORT. The fields of a word and the formats of the encoder as numbers, so that what decode and encode do to each other is
arithmetic; and how a word is rebuilt from its bytes. -/

namespace Sys2Proof

/-! ### Fields as numbers -/

theorem toNat_fieldTop (w : Word) : (fieldTop w).toNat = w.toNat / 4096 := by
  have := w.isLt
  simp only [fieldTop, BitVec.extractLsb'_toNat, Nat.shiftRight_eq_div_pow]
  omega

theorem val_fieldX (w : Word) : (fieldX w).val = w.toNat / 256 % 16 := by
  simp only [fieldX, BitVec.val_toFin, BitVec.extractLsb'_toNat, Nat.shiftRight_eq_div_pow]

theorem val_fieldY (w : Word) : (fieldY w).val = w.toNat / 16 % 16 := by
  simp only [fieldY, BitVec.val_toFin, BitVec.extractLsb'_toNat, Nat.shiftRight_eq_div_pow]

theorem toNat_fieldN (w : Word) : (fieldN w).toNat = w.toNat % 16 := by
  simp [fieldN, BitVec.extractLsb'_toNat]

theorem toNat_fieldKk (w : Word) : (fieldKk w).toNat = w.toNat % 256 := by
  simp [fieldKk, BitVec.extractLsb'_toNat]

theorem toNat_fieldNnn (w : Word) : (fieldNnn w).toNat = w.toNat % 4096 := by
  simp [fieldNnn, BitVec.extractLsb'_toNat]

/-! ### Formats as numbers -/

theorem toNat_append_eq {m n : Nat} (a : BitVec m) (b : BitVec n) : (a ++ b).toNat = a.toNat * 2 ^ n + b.toNat := by
  rw [BitVec.toNat_append, ← Nat.shiftLeft_add_eq_or_of_lt b.isLt, Nat.shiftLeft_eq]

theorem toNat_formatA (top : BitVec 4) (nnn : Addr) : (formatA top nnn).toNat = top.toNat * 4096 + nnn.toNat :=
  toNat_append_eq top nnn

theorem toNat_formatXK (top : BitVec 4) (x : Reg) (kk : Byte) :
    (formatXK top x kk).toNat = top.toNat * 4096 + x.val * 256 + kk.toNat := by
  refine (toNat_append_eq (top ++ (BitVec.ofFin x : BitVec 4)) kk).trans ?_
  rw [toNat_append_eq]
  simp only [BitVec.toNat_ofFin]
  omega

theorem toNat_formatXYN (top : BitVec 4) (x y : Reg) (n : BitVec 4) :
    (formatXYN top x y n).toNat = top.toNat * 4096 + x.val * 256 + y.val * 16 + n.toNat := by
  refine (toNat_append_eq (top ++ (BitVec.ofFin x : BitVec 4) ++ (BitVec.ofFin y : BitVec 4)) n).trans ?_
  rw [toNat_append_eq, toNat_append_eq]
  simp only [BitVec.toNat_ofFin]
  omega

/-! ### The fields of what the encoder writes -/

@[simp] theorem fieldTop_formatA (top : BitVec 4) (nnn : Addr) : fieldTop (formatA top nnn) = top := by
  apply BitVec.eq_of_toNat_eq; rw [toNat_fieldTop, toNat_formatA]; omega

@[simp] theorem fieldNnn_formatA (top : BitVec 4) (nnn : Addr) : fieldNnn (formatA top nnn) = nnn := by
  apply BitVec.eq_of_toNat_eq; rw [toNat_fieldNnn, toNat_formatA]; omega

@[simp] theorem fieldTop_formatXK (top : BitVec 4) (x : Reg) (kk : Byte) : fieldTop (formatXK top x kk) = top := by
  apply BitVec.eq_of_toNat_eq; rw [toNat_fieldTop, toNat_formatXK]; omega

@[simp] theorem fieldX_formatXK (top : BitVec 4) (x : Reg) (kk : Byte) : fieldX (formatXK top x kk) = x := by
  apply Fin.ext; rw [val_fieldX, toNat_formatXK]; omega

@[simp] theorem fieldKk_formatXK (top : BitVec 4) (x : Reg) (kk : Byte) : fieldKk (formatXK top x kk) = kk := by
  apply BitVec.eq_of_toNat_eq; rw [toNat_fieldKk, toNat_formatXK]; omega

@[simp] theorem fieldTop_formatXYN (top : BitVec 4) (x y : Reg) (n : BitVec 4) : fieldTop (formatXYN top x y n) = top := by
  apply BitVec.eq_of_toNat_eq; rw [toNat_fieldTop, toNat_formatXYN]; omega

@[simp] theorem fieldX_formatXYN (top : BitVec 4) (x y : Reg) (n : BitVec 4) : fieldX (formatXYN top x y n) = x := by
  apply Fin.ext; rw [val_fieldX, toNat_formatXYN]; omega

@[simp] theorem fieldY_formatXYN (top : BitVec 4) (x y : Reg) (n : BitVec 4) : fieldY (formatXYN top x y n) = y := by
  apply Fin.ext; rw [val_fieldY, toNat_formatXYN]; omega

@[simp] theorem fieldN_formatXYN (top : BitVec 4) (x y : Reg) (n : BitVec 4) : fieldN (formatXYN top x y n) = n := by
  apply BitVec.eq_of_toNat_eq; rw [toNat_fieldN, toNat_formatXYN]; omega

/-! ### A word from its fields, and under a mask -/

/-- A word is its four nibbles. -/
theorem formatXYN_fields (w : Word) : formatXYN (fieldTop w) (fieldX w) (fieldY w) (fieldN w) = w := by
  apply BitVec.eq_of_toNat_eq
  rw [toNat_formatXYN, toNat_fieldTop, val_fieldX, val_fieldY, toNat_fieldN]; omega

/-- A word is its top nibble, its x field and its low byte. -/
theorem formatXK_fields (w : Word) : formatXK (fieldTop w) (fieldX w) (fieldKk w) = w := by
  apply BitVec.eq_of_toNat_eq
  rw [toNat_formatXK, toNat_fieldTop, val_fieldX, toNat_fieldKk]; omega

/-- A word is its top nibble and its address. -/
theorem formatA_fields (w : Word) : formatA (fieldTop w) (fieldNnn w) = w := by
  apply BitVec.eq_of_toNat_eq
  rw [toNat_formatA, toNat_fieldTop, toNat_fieldNnn]; omega

/-- A mask acts nibble by nibble. -/
theorem toNat_and_nibbles (w : Word) (a b c d : BitVec 4) :
    (w &&& (a ++ b ++ c ++ d)).toNat =
      (fieldTop w &&& a).toNat * 4096 + ((fieldX w).val &&& b.toNat) * 256 + ((fieldY w).val &&& c.toNat) * 16 +
        (fieldN w &&& d).toNat := by
  conv_lhs => rw [← formatXYN_fields w, formatXYN, BitVec.and_append, BitVec.and_append, BitVec.and_append]
  simp only [toNat_append_eq, BitVec.toNat_and, BitVec.toNat_ofFin]
  omega

/-- The mask of the families whose whole rest is operand. -/
theorem toNat_and_F000 (w : Word) : (w &&& 0xF000#16).toNat = (fieldTop w).toNat * 4096 := by
  refine (toNat_and_nibbles w (BitVec.allOnes 4) 0 0 0).trans ?_
  rw [BitVec.and_allOnes]; simp

/-- The mask of family 8. -/
theorem toNat_and_F00F (w : Word) : (w &&& 0xF00F#16).toNat = (fieldTop w).toNat * 4096 + (fieldN w).toNat := by
  refine (toNat_and_nibbles w (BitVec.allOnes 4) 0 0 (BitVec.allOnes 4)).trans ?_
  rw [BitVec.and_allOnes, BitVec.and_allOnes]; simp

/-- The mask of families E and F. -/
theorem toNat_and_F0FF (w : Word) : (w &&& 0xF0FF#16).toNat = (fieldTop w).toNat * 4096 + (fieldKk w).toNat := by
  refine (toNat_and_nibbles w (BitVec.allOnes 4) 0 (BitVec.allOnes 4) (BitVec.allOnes 4)).trans ?_
  have := w.isLt
  rw [BitVec.and_allOnes, BitVec.and_allOnes, toNat_fieldKk, toNat_fieldN, BitVec.toNat_allOnes, Nat.and_two_pow_sub_one_eq_mod,
    val_fieldY]
  simp; omega

/-- A word without its low nibble. -/
theorem toNat_and_FFF0 (w : Word) : (w &&& 0xFFF0#16).toNat = w.toNat / 16 * 16 := by
  refine (toNat_and_nibbles w (BitVec.allOnes 4) (BitVec.allOnes 4) (BitVec.allOnes 4) 0).trans ?_
  have := w.isLt
  rw [BitVec.and_allOnes, BitVec.toNat_allOnes, Nat.and_two_pow_sub_one_eq_mod, Nat.and_two_pow_sub_one_eq_mod, toNat_fieldTop,
    val_fieldX, val_fieldY]
  simp; omega

/-- A word without its y field. -/
theorem toNat_and_FF0F (w : Word) : (w &&& 0xFF0F#16).toNat = w.toNat / 256 * 256 + w.toNat % 16 := by
  refine (toNat_and_nibbles w (BitVec.allOnes 4) (BitVec.allOnes 4) 0 (BitVec.allOnes 4)).trans ?_
  have := w.isLt
  rw [BitVec.and_allOnes, BitVec.and_allOnes, BitVec.toNat_allOnes, Nat.and_two_pow_sub_one_eq_mod, toNat_fieldTop, val_fieldX,
    toNat_fieldN]
  simp; omega

/-! ### Words and bytes -/

/-- A word is its high byte and its low byte. -/
@[simp] theorem wordOfBytes_high_low (w : Word) : wordOfBytes (highByte w) (lowByte w) = w := by
  apply BitVec.eq_of_toNat_eq
  refine (toNat_append_eq (highByte w) (lowByte w)).trans ?_
  simp only [highByte, lowByte, BitVec.extractLsb'_toNat, Nat.shiftRight_eq_div_pow]
  have := w.isLt
  omega

/-- The decoder on a stored word. -/
theorem decode_bytesOfWord (w : Word) (rest : List Byte) :
    decode (bytesOfWord w ++ rest) =
      match decodeWord w with
      | some i => .ok (i, rest)
      | none => .error (.unrecognized w) := by
  cases hd : decodeWord w <;> simp [bytesOfWord, decode, hd]

/-- What the host's view of the decoder answers. -/
theorem decodeTableWord_eq (nbits w : Nat) : decodeTableWord nbits w = decodeWord (tableWord nbits w) := by
  have h := decode_bytesOfWord (tableWord nbits w) []
  rw [List.append_nil] at h
  rw [decodeTableWord, h]
  cases decodeWord (tableWord nbits w) <;> rfl

end Sys2Proof
end

