-- ==== Sys2Proof/Laws/Memory.lean ====
section
/-! SUPPORT. The laws of memory: a read after a write, and that every memory operation keeps the canonical form. -/

namespace Sys2Proof.Machine

/-! ### Reading what was written -/

theorem Memory.read_insert (font : Font) (m : List Host.Cell) (a b : Nat) (u : Byte) :
    Memory.read font (Memory.insert a u m) b = if b = a then u else Memory.read font m b := by
  induction m with
  | nil => simp [Memory.insert, Memory.read]
  | cons c rest ih =>
    obtain ⟨d, w⟩ := c
    simp only [Memory.insert]
    split
    · simp [Memory.read]
    · split
      · subst a
        simp only [Memory.read]
        split <;> rfl
      · simp only [Memory.read, ih]
        by_cases hb : b = d
        · rw [if_pos hb, if_pos hb, if_neg (by omega)]
        · rw [if_neg hb, if_neg hb]

theorem Memory.read_erase (font : Font) (m : List Host.Cell) (a b : Nat) :
    Memory.read font (Memory.erase a m) b = if b = a then Memory.unlisted font a else Memory.read font m b := by
  induction m with
  | nil =>
    simp only [Memory.erase, Memory.read]
    split
    · subst b; rfl
    · rfl
  | cons c rest ih =>
    obtain ⟨d, w⟩ := c
    by_cases hd : a = d
    · subst d
      simp only [Memory.erase, Memory.read, if_true, ih]
      split <;> rfl
    · simp only [Memory.erase, if_neg hd, Memory.read, ih]
      by_cases hb : b = d
      · rw [if_pos hb, if_pos hb, if_neg (by omega)]
      · rw [if_neg hb, if_neg hb]

/-- The one law of reads and writes (20_memory.md R72). -/
theorem Memory.read_write (font : Font) (m : List Host.Cell) (a b : Nat) (u : Byte) :
    Memory.read font (Memory.write font m a u) b = if b = a then u else Memory.read font m b := by
  unfold Memory.write
  split
  · rename_i h; rw [Memory.read_erase, h]
  · rw [Memory.read_insert]

theorem Memory.read_writeBytes_outside (font : Font) (bs : List Byte) (m : List Host.Cell) (a b : Nat)
    (h : ¬(a ≤ b ∧ b < a + bs.length)) : Memory.read font (Memory.writeBytes font m a bs) b = Memory.read font m b := by
  induction bs generalizing m a with
  | nil => rfl
  | cons u rest ih =>
    simp only [List.length_cons] at h
    rw [Memory.writeBytes, ih _ _ (by omega), Memory.read_write, if_neg (by omega)]

theorem Memory.read_writeBytes_inside (font : Font) (bs : List Byte) (m : List Host.Cell) (a k : Nat) (h : k < bs.length) :
    Memory.read font (Memory.writeBytes font m a bs) (a + k) = bs[k] := by
  induction bs generalizing m a k with
  | nil => simp at h
  | cons u rest ih =>
    rw [Memory.writeBytes]
    cases k with
    | zero =>
      rw [Memory.read_writeBytes_outside _ _ _ _ _ (by omega), Memory.read_write, if_pos (by omega)]
      rfl
    | succ j =>
      have := ih (Memory.write font m a u) (a + 1) j (by simpa using h)
      rw [show a + (j + 1) = a + 1 + j by omega, this]
      rfl

@[simp] theorem Memory.length_readBytes (font : Font) (m : List Host.Cell) (a n : Nat) :
    (Memory.readBytes font m a n).length = n := by
  induction n generalizing a with
  | zero => rfl
  | succ n ih => simp [Memory.readBytes, ih]

theorem Memory.getElem_readBytes (font : Font) (m : List Host.Cell) (a n k : Nat)
    (h : k < (Memory.readBytes font m a n).length) : (Memory.readBytes font m a n)[k] = Memory.read font m (a + k) := by
  induction n generalizing a k with
  | zero => simp [Memory.readBytes] at h
  | succ n ih =>
    cases k with
    | zero => rfl
    | succ j =>
      simp only [Memory.readBytes, List.getElem_cons_succ]
      rw [ih]; congr 1; omega

/-! ### The canonical form -/

theorem Memory.wfFrom_mono (font : Font) {lo lo' : Nat} {m : List Host.Cell} (hlo : lo' ≤ lo)
    (h : Memory.wfFrom font lo m = true) : Memory.wfFrom font lo' m = true := by
  cases m with
  | nil => rfl
  | cons c rest =>
    simp only [Memory.wfFrom, Bool.and_eq_true, decide_eq_true_eq] at h ⊢
    exact ⟨⟨by omega, h.1.2⟩, h.2⟩

theorem Memory.wfFrom_insert (font : Font) {lo a : Nat} {u : Byte} {m : List Host.Cell} (hm : Memory.wfFrom font lo m = true)
    (hlo : lo ≤ a) (ha : a < 4096) (hu : u ≠ Memory.unlisted font a) :
    Memory.wfFrom font lo (Memory.insert a u m) = true := by
  induction m generalizing lo with
  | nil => simp [Memory.insert, Memory.wfFrom, hlo, ha, hu]
  | cons c rest ih =>
    obtain ⟨b, w⟩ := c
    simp only [Memory.wfFrom, Bool.and_eq_true, decide_eq_true_eq] at hm
    simp only [Memory.insert]
    split
    · simp only [Memory.wfFrom, Bool.and_eq_true, decide_eq_true_eq]
      exact ⟨⟨hlo, ha, hu⟩, ⟨by omega, hm.1.2⟩, hm.2⟩
    · split
      · subst b
        simp only [Memory.wfFrom, Bool.and_eq_true, decide_eq_true_eq]
        exact ⟨⟨hlo, ha, hu⟩, hm.2⟩
      · simp only [Memory.wfFrom, Bool.and_eq_true, decide_eq_true_eq]
        exact ⟨hm.1, ih hm.2 (by omega)⟩

theorem Memory.wfFrom_erase (font : Font) {lo a : Nat} {m : List Host.Cell} (hm : Memory.wfFrom font lo m = true) :
    Memory.wfFrom font lo (Memory.erase a m) = true := by
  induction m generalizing lo with
  | nil => rfl
  | cons c rest ih =>
    obtain ⟨b, w⟩ := c
    simp only [Memory.wfFrom, Bool.and_eq_true, decide_eq_true_eq] at hm
    simp only [Memory.erase]
    split
    · exact Memory.wfFrom_mono font (by omega) (ih hm.2)
    · simp only [Memory.wfFrom, Bool.and_eq_true, decide_eq_true_eq]
      exact ⟨hm.1, ih hm.2⟩

/-- A write below 4096 keeps the canonical form. -/
theorem Memory.wf_write (font : Font) {m : List Host.Cell} {a : Nat} {u : Byte} (hm : Memory.wf font m = true)
    (ha : a < 4096) : Memory.wf font (Memory.write font m a u) = true := by
  unfold Memory.write
  split
  · exact Memory.wfFrom_erase font hm
  · exact Memory.wfFrom_insert font hm (Nat.zero_le a) ha ‹_›

/-- Writing a range that ends below 4096 keeps the canonical form. -/
theorem Memory.wf_writeBytes (font : Font) {m : List Host.Cell} {a : Nat} {bs : List Byte} (hm : Memory.wf font m = true)
    (ha : a + bs.length ≤ 4096) : Memory.wf font (Memory.writeBytes font m a bs) = true := by
  induction bs generalizing m a with
  | nil => exact hm
  | cons u rest ih =>
    simp only [List.length_cons] at ha
    exact ih (Memory.wf_write font hm (by omega)) (by omega)

/-- Nothing listed is the canonical form of the image memory is constructed with. -/
theorem Memory.wf_nil (font : Font) : Memory.wf font [] = true := rfl

/-- What a canonical list lists is no default, and lies at or above its bound. -/
theorem Memory.read_of_wfFrom_below (font : Font) {lo a : Nat} {m : List Host.Cell} (hm : Memory.wfFrom font lo m = true)
    (ha : a < lo) : Memory.read font m a = Memory.unlisted font a := by
  induction m generalizing lo with
  | nil => rfl
  | cons c rest ih =>
    obtain ⟨b, w⟩ := c
    simp only [Memory.wfFrom, Bool.and_eq_true, decide_eq_true_eq] at hm
    rw [Memory.read, if_neg (by omega)]
    exact ih hm.2 (by omega)

end Sys2Proof.Machine
end

