-- ==== Sys2Proof/Laws/State.lean ====
section
/-! SUPPORT. For each operation that updates the state, what each field is afterwards: one lemma per field, so that no proof
unfolds a record update. -/

namespace Sys2Proof.Machine

/-! ### The parameters -/

/-- CLOCK_RATE is at least 60 (00_scope.md R10). -/
theorem sixty_le_clockRate (c : Config) : 60 ≤ c.clockRate := Nat.le_add_left 60 _

/-- P is at least 1 (R10). -/
theorem period_pos (c : Config) : 0 < c.period := Nat.div_pos (sixty_le_clockRate c) (by decide)

/-! ### putBytes -/

@[simp] theorem State.putBytes_mem (s : State) (a : Nat) (bs : List Byte) : (s.putBytes a bs).mem = Memory.writeBytes s.config.font s.mem a bs := rfl
@[simp] theorem State.putBytes_v (s : State) (a : Nat) (bs : List Byte) : (s.putBytes a bs).v = s.v := rfl
@[simp] theorem State.putBytes_i (s : State) (a : Nat) (bs : List Byte) : (s.putBytes a bs).i = s.i := rfl
@[simp] theorem State.putBytes_pc (s : State) (a : Nat) (bs : List Byte) : (s.putBytes a bs).pc = s.pc := rfl
@[simp] theorem State.putBytes_stack (s : State) (a : Nat) (bs : List Byte) : (s.putBytes a bs).stack = s.stack := rfl
@[simp] theorem State.putBytes_sp (s : State) (a : Nat) (bs : List Byte) : (s.putBytes a bs).sp = s.sp := rfl
@[simp] theorem State.putBytes_dt (s : State) (a : Nat) (bs : List Byte) : (s.putBytes a bs).dt = s.dt := rfl
@[simp] theorem State.putBytes_st (s : State) (a : Nat) (bs : List Byte) : (s.putBytes a bs).st = s.st := rfl
@[simp] theorem State.putBytes_cyc (s : State) (a : Nat) (bs : List Byte) : (s.putBytes a bs).cyc = s.cyc := rfl
@[simp] theorem State.putBytes_disp (s : State) (a : Nat) (bs : List Byte) : (s.putBytes a bs).disp = s.disp := rfl
@[simp] theorem State.putBytes_keys (s : State) (a : Nat) (bs : List Byte) : (s.putBytes a bs).keys = s.keys := rfl
@[simp] theorem State.putBytes_wait (s : State) (a : Nat) (bs : List Byte) : (s.putBytes a bs).wait = s.wait := rfl
@[simp] theorem State.putBytes_config (s : State) (a : Nat) (bs : List Byte) : (s.putBytes a bs).config = s.config := rfl
@[simp] theorem State.putBytes_signal (s : State) (a : Nat) (bs : List Byte) : (s.putBytes a bs).signal = s.signal := rfl
@[simp] theorem State.putBytes_keyIn (s : State) (a : Nat) (bs : List Byte) : (s.putBytes a bs).keyIn = s.keyIn := rfl
@[simp] theorem State.putBytes_randomIn (s : State) (a : Nat) (bs : List Byte) : (s.putBytes a bs).randomIn = s.randomIn := rfl
@[simp] theorem State.putBytes_draws (s : State) (a : Nat) (bs : List Byte) : (s.putBytes a bs).draws = s.draws := rfl
@[simp] theorem State.putBytes_reg (s : State) (a : Nat) (bs : List Byte) (q : Reg) : (s.putBytes a bs).reg q = s.reg q := rfl
@[simp] theorem State.putBytes_effAddr (s : State) (a : Nat) (bs : List Byte) (n : Nat) : (s.putBytes a bs).effAddr n = s.effAddr n := rfl

/-! ### setReg -/

@[simp] theorem State.setReg_mem (s : State) (r : Reg) (u : Byte) : (s.setReg r u).mem = s.mem := rfl
@[simp] theorem State.setReg_v (s : State) (r : Reg) (u : Byte) : (s.setReg r u).v = s.v.set r.val u r.isLt := rfl
@[simp] theorem State.setReg_i (s : State) (r : Reg) (u : Byte) : (s.setReg r u).i = s.i := rfl
@[simp] theorem State.setReg_pc (s : State) (r : Reg) (u : Byte) : (s.setReg r u).pc = s.pc := rfl
@[simp] theorem State.setReg_stack (s : State) (r : Reg) (u : Byte) : (s.setReg r u).stack = s.stack := rfl
@[simp] theorem State.setReg_sp (s : State) (r : Reg) (u : Byte) : (s.setReg r u).sp = s.sp := rfl
@[simp] theorem State.setReg_dt (s : State) (r : Reg) (u : Byte) : (s.setReg r u).dt = s.dt := rfl
@[simp] theorem State.setReg_st (s : State) (r : Reg) (u : Byte) : (s.setReg r u).st = s.st := rfl
@[simp] theorem State.setReg_cyc (s : State) (r : Reg) (u : Byte) : (s.setReg r u).cyc = s.cyc := rfl
@[simp] theorem State.setReg_disp (s : State) (r : Reg) (u : Byte) : (s.setReg r u).disp = s.disp := rfl
@[simp] theorem State.setReg_keys (s : State) (r : Reg) (u : Byte) : (s.setReg r u).keys = s.keys := rfl
@[simp] theorem State.setReg_wait (s : State) (r : Reg) (u : Byte) : (s.setReg r u).wait = s.wait := rfl
@[simp] theorem State.setReg_config (s : State) (r : Reg) (u : Byte) : (s.setReg r u).config = s.config := rfl
@[simp] theorem State.setReg_signal (s : State) (r : Reg) (u : Byte) : (s.setReg r u).signal = s.signal := rfl
@[simp] theorem State.setReg_keyIn (s : State) (r : Reg) (u : Byte) : (s.setReg r u).keyIn = s.keyIn := rfl
@[simp] theorem State.setReg_randomIn (s : State) (r : Reg) (u : Byte) : (s.setReg r u).randomIn = s.randomIn := rfl
@[simp] theorem State.setReg_draws (s : State) (r : Reg) (u : Byte) : (s.setReg r u).draws = s.draws := rfl
@[simp] theorem State.setReg_byte (s : State) (r : Reg) (u : Byte) (b : Nat) : (s.setReg r u).byte b = s.byte b := rfl
@[simp] theorem State.setReg_effAddr (s : State) (r : Reg) (u : Byte) (n : Nat) : (s.setReg r u).effAddr n = s.effAddr n := rfl

/-! ### setRegsFrom -/

@[simp] theorem State.setRegsFrom_mem (s : State) (k : Nat) (bs : List Byte) : (s.setRegsFrom k bs).mem = s.mem := rfl
@[simp] theorem State.setRegsFrom_v (s : State) (k : Nat) (bs : List Byte) : (s.setRegsFrom k bs).v = fillRegs s.v k bs := rfl
@[simp] theorem State.setRegsFrom_i (s : State) (k : Nat) (bs : List Byte) : (s.setRegsFrom k bs).i = s.i := rfl
@[simp] theorem State.setRegsFrom_pc (s : State) (k : Nat) (bs : List Byte) : (s.setRegsFrom k bs).pc = s.pc := rfl
@[simp] theorem State.setRegsFrom_stack (s : State) (k : Nat) (bs : List Byte) : (s.setRegsFrom k bs).stack = s.stack := rfl
@[simp] theorem State.setRegsFrom_sp (s : State) (k : Nat) (bs : List Byte) : (s.setRegsFrom k bs).sp = s.sp := rfl
@[simp] theorem State.setRegsFrom_dt (s : State) (k : Nat) (bs : List Byte) : (s.setRegsFrom k bs).dt = s.dt := rfl
@[simp] theorem State.setRegsFrom_st (s : State) (k : Nat) (bs : List Byte) : (s.setRegsFrom k bs).st = s.st := rfl
@[simp] theorem State.setRegsFrom_cyc (s : State) (k : Nat) (bs : List Byte) : (s.setRegsFrom k bs).cyc = s.cyc := rfl
@[simp] theorem State.setRegsFrom_disp (s : State) (k : Nat) (bs : List Byte) : (s.setRegsFrom k bs).disp = s.disp := rfl
@[simp] theorem State.setRegsFrom_keys (s : State) (k : Nat) (bs : List Byte) : (s.setRegsFrom k bs).keys = s.keys := rfl
@[simp] theorem State.setRegsFrom_wait (s : State) (k : Nat) (bs : List Byte) : (s.setRegsFrom k bs).wait = s.wait := rfl
@[simp] theorem State.setRegsFrom_config (s : State) (k : Nat) (bs : List Byte) : (s.setRegsFrom k bs).config = s.config := rfl
@[simp] theorem State.setRegsFrom_signal (s : State) (k : Nat) (bs : List Byte) : (s.setRegsFrom k bs).signal = s.signal := rfl
@[simp] theorem State.setRegsFrom_keyIn (s : State) (k : Nat) (bs : List Byte) : (s.setRegsFrom k bs).keyIn = s.keyIn := rfl
@[simp] theorem State.setRegsFrom_randomIn (s : State) (k : Nat) (bs : List Byte) : (s.setRegsFrom k bs).randomIn = s.randomIn := rfl
@[simp] theorem State.setRegsFrom_draws (s : State) (k : Nat) (bs : List Byte) : (s.setRegsFrom k bs).draws = s.draws := rfl
@[simp] theorem State.setRegsFrom_byte (s : State) (k : Nat) (bs : List Byte) (b : Nat) : (s.setRegsFrom k bs).byte b = s.byte b := rfl
@[simp] theorem State.setRegsFrom_effAddr (s : State) (k : Nat) (bs : List Byte) (n : Nat) : (s.setRegsFrom k bs).effAddr n = s.effAddr n := rfl

/-! ### setI -/

@[simp] theorem State.setI_mem (s : State) (w : Word) : (s.setI w).mem = s.mem := rfl
@[simp] theorem State.setI_v (s : State) (w : Word) : (s.setI w).v = s.v := rfl
@[simp] theorem State.setI_i (s : State) (w : Word) : (s.setI w).i = w := rfl
@[simp] theorem State.setI_pc (s : State) (w : Word) : (s.setI w).pc = s.pc := rfl
@[simp] theorem State.setI_stack (s : State) (w : Word) : (s.setI w).stack = s.stack := rfl
@[simp] theorem State.setI_sp (s : State) (w : Word) : (s.setI w).sp = s.sp := rfl
@[simp] theorem State.setI_dt (s : State) (w : Word) : (s.setI w).dt = s.dt := rfl
@[simp] theorem State.setI_st (s : State) (w : Word) : (s.setI w).st = s.st := rfl
@[simp] theorem State.setI_cyc (s : State) (w : Word) : (s.setI w).cyc = s.cyc := rfl
@[simp] theorem State.setI_disp (s : State) (w : Word) : (s.setI w).disp = s.disp := rfl
@[simp] theorem State.setI_keys (s : State) (w : Word) : (s.setI w).keys = s.keys := rfl
@[simp] theorem State.setI_wait (s : State) (w : Word) : (s.setI w).wait = s.wait := rfl
@[simp] theorem State.setI_config (s : State) (w : Word) : (s.setI w).config = s.config := rfl
@[simp] theorem State.setI_signal (s : State) (w : Word) : (s.setI w).signal = s.signal := rfl
@[simp] theorem State.setI_keyIn (s : State) (w : Word) : (s.setI w).keyIn = s.keyIn := rfl
@[simp] theorem State.setI_randomIn (s : State) (w : Word) : (s.setI w).randomIn = s.randomIn := rfl
@[simp] theorem State.setI_draws (s : State) (w : Word) : (s.setI w).draws = s.draws := rfl
@[simp] theorem State.setI_byte (s : State) (w : Word) (b : Nat) : (s.setI w).byte b = s.byte b := rfl
@[simp] theorem State.setI_reg (s : State) (w : Word) (q : Reg) : (s.setI w).reg q = s.reg q := rfl

/-! ### setPc -/

@[simp] theorem State.setPc_mem (s : State) (w : Word) : (s.setPc w).mem = s.mem := rfl
@[simp] theorem State.setPc_v (s : State) (w : Word) : (s.setPc w).v = s.v := rfl
@[simp] theorem State.setPc_i (s : State) (w : Word) : (s.setPc w).i = s.i := rfl
@[simp] theorem State.setPc_pc (s : State) (w : Word) : (s.setPc w).pc = w := rfl
@[simp] theorem State.setPc_stack (s : State) (w : Word) : (s.setPc w).stack = s.stack := rfl
@[simp] theorem State.setPc_sp (s : State) (w : Word) : (s.setPc w).sp = s.sp := rfl
@[simp] theorem State.setPc_dt (s : State) (w : Word) : (s.setPc w).dt = s.dt := rfl
@[simp] theorem State.setPc_st (s : State) (w : Word) : (s.setPc w).st = s.st := rfl
@[simp] theorem State.setPc_cyc (s : State) (w : Word) : (s.setPc w).cyc = s.cyc := rfl
@[simp] theorem State.setPc_disp (s : State) (w : Word) : (s.setPc w).disp = s.disp := rfl
@[simp] theorem State.setPc_keys (s : State) (w : Word) : (s.setPc w).keys = s.keys := rfl
@[simp] theorem State.setPc_wait (s : State) (w : Word) : (s.setPc w).wait = s.wait := rfl
@[simp] theorem State.setPc_config (s : State) (w : Word) : (s.setPc w).config = s.config := rfl
@[simp] theorem State.setPc_signal (s : State) (w : Word) : (s.setPc w).signal = s.signal := rfl
@[simp] theorem State.setPc_keyIn (s : State) (w : Word) : (s.setPc w).keyIn = s.keyIn := rfl
@[simp] theorem State.setPc_randomIn (s : State) (w : Word) : (s.setPc w).randomIn = s.randomIn := rfl
@[simp] theorem State.setPc_draws (s : State) (w : Word) : (s.setPc w).draws = s.draws := rfl
@[simp] theorem State.setPc_byte (s : State) (w : Word) (b : Nat) : (s.setPc w).byte b = s.byte b := rfl
@[simp] theorem State.setPc_reg (s : State) (w : Word) (q : Reg) : (s.setPc w).reg q = s.reg q := rfl
@[simp] theorem State.setPc_effAddr (s : State) (w : Word) (n : Nat) : (s.setPc w).effAddr n = s.effAddr n := rfl

/-! ### advance -/

@[simp] theorem State.advance_mem (s : State) (k : Word) : (s.advance k).mem = s.mem := rfl
@[simp] theorem State.advance_v (s : State) (k : Word) : (s.advance k).v = s.v := rfl
@[simp] theorem State.advance_i (s : State) (k : Word) : (s.advance k).i = s.i := rfl
@[simp] theorem State.advance_pc (s : State) (k : Word) : (s.advance k).pc = s.pc + k := rfl
@[simp] theorem State.advance_stack (s : State) (k : Word) : (s.advance k).stack = s.stack := rfl
@[simp] theorem State.advance_sp (s : State) (k : Word) : (s.advance k).sp = s.sp := rfl
@[simp] theorem State.advance_dt (s : State) (k : Word) : (s.advance k).dt = s.dt := rfl
@[simp] theorem State.advance_st (s : State) (k : Word) : (s.advance k).st = s.st := rfl
@[simp] theorem State.advance_cyc (s : State) (k : Word) : (s.advance k).cyc = s.cyc := rfl
@[simp] theorem State.advance_disp (s : State) (k : Word) : (s.advance k).disp = s.disp := rfl
@[simp] theorem State.advance_keys (s : State) (k : Word) : (s.advance k).keys = s.keys := rfl
@[simp] theorem State.advance_wait (s : State) (k : Word) : (s.advance k).wait = s.wait := rfl
@[simp] theorem State.advance_config (s : State) (k : Word) : (s.advance k).config = s.config := rfl
@[simp] theorem State.advance_signal (s : State) (k : Word) : (s.advance k).signal = s.signal := rfl
@[simp] theorem State.advance_keyIn (s : State) (k : Word) : (s.advance k).keyIn = s.keyIn := rfl
@[simp] theorem State.advance_randomIn (s : State) (k : Word) : (s.advance k).randomIn = s.randomIn := rfl
@[simp] theorem State.advance_draws (s : State) (k : Word) : (s.advance k).draws = s.draws := rfl
@[simp] theorem State.advance_byte (s : State) (k : Word) (b : Nat) : (s.advance k).byte b = s.byte b := rfl
@[simp] theorem State.advance_reg (s : State) (k : Word) (q : Reg) : (s.advance k).reg q = s.reg q := rfl
@[simp] theorem State.advance_effAddr (s : State) (k : Word) (n : Nat) : (s.advance k).effAddr n = s.effAddr n := rfl

/-! ### setDt -/

@[simp] theorem State.setDt_mem (s : State) (u : Byte) : (s.setDt u).mem = s.mem := rfl
@[simp] theorem State.setDt_v (s : State) (u : Byte) : (s.setDt u).v = s.v := rfl
@[simp] theorem State.setDt_i (s : State) (u : Byte) : (s.setDt u).i = s.i := rfl
@[simp] theorem State.setDt_pc (s : State) (u : Byte) : (s.setDt u).pc = s.pc := rfl
@[simp] theorem State.setDt_stack (s : State) (u : Byte) : (s.setDt u).stack = s.stack := rfl
@[simp] theorem State.setDt_sp (s : State) (u : Byte) : (s.setDt u).sp = s.sp := rfl
@[simp] theorem State.setDt_dt (s : State) (u : Byte) : (s.setDt u).dt = u := rfl
@[simp] theorem State.setDt_st (s : State) (u : Byte) : (s.setDt u).st = s.st := rfl
@[simp] theorem State.setDt_cyc (s : State) (u : Byte) : (s.setDt u).cyc = s.cyc := rfl
@[simp] theorem State.setDt_disp (s : State) (u : Byte) : (s.setDt u).disp = s.disp := rfl
@[simp] theorem State.setDt_keys (s : State) (u : Byte) : (s.setDt u).keys = s.keys := rfl
@[simp] theorem State.setDt_wait (s : State) (u : Byte) : (s.setDt u).wait = s.wait := rfl
@[simp] theorem State.setDt_config (s : State) (u : Byte) : (s.setDt u).config = s.config := rfl
@[simp] theorem State.setDt_signal (s : State) (u : Byte) : (s.setDt u).signal = s.signal := rfl
@[simp] theorem State.setDt_keyIn (s : State) (u : Byte) : (s.setDt u).keyIn = s.keyIn := rfl
@[simp] theorem State.setDt_randomIn (s : State) (u : Byte) : (s.setDt u).randomIn = s.randomIn := rfl
@[simp] theorem State.setDt_draws (s : State) (u : Byte) : (s.setDt u).draws = s.draws := rfl
@[simp] theorem State.setDt_byte (s : State) (u : Byte) (b : Nat) : (s.setDt u).byte b = s.byte b := rfl
@[simp] theorem State.setDt_reg (s : State) (u : Byte) (q : Reg) : (s.setDt u).reg q = s.reg q := rfl
@[simp] theorem State.setDt_effAddr (s : State) (u : Byte) (n : Nat) : (s.setDt u).effAddr n = s.effAddr n := rfl

/-! ### setSt -/

@[simp] theorem State.setSt_mem (s : State) (u : Byte) : (s.setSt u).mem = s.mem := rfl
@[simp] theorem State.setSt_v (s : State) (u : Byte) : (s.setSt u).v = s.v := rfl
@[simp] theorem State.setSt_i (s : State) (u : Byte) : (s.setSt u).i = s.i := rfl
@[simp] theorem State.setSt_pc (s : State) (u : Byte) : (s.setSt u).pc = s.pc := rfl
@[simp] theorem State.setSt_stack (s : State) (u : Byte) : (s.setSt u).stack = s.stack := rfl
@[simp] theorem State.setSt_sp (s : State) (u : Byte) : (s.setSt u).sp = s.sp := rfl
@[simp] theorem State.setSt_dt (s : State) (u : Byte) : (s.setSt u).dt = s.dt := rfl
@[simp] theorem State.setSt_st (s : State) (u : Byte) : (s.setSt u).st = u := rfl
@[simp] theorem State.setSt_cyc (s : State) (u : Byte) : (s.setSt u).cyc = s.cyc := rfl
@[simp] theorem State.setSt_disp (s : State) (u : Byte) : (s.setSt u).disp = s.disp := rfl
@[simp] theorem State.setSt_keys (s : State) (u : Byte) : (s.setSt u).keys = s.keys := rfl
@[simp] theorem State.setSt_wait (s : State) (u : Byte) : (s.setSt u).wait = s.wait := rfl
@[simp] theorem State.setSt_config (s : State) (u : Byte) : (s.setSt u).config = s.config := rfl
@[simp] theorem State.setSt_signal (s : State) (u : Byte) : (s.setSt u).signal = s.signal := rfl
@[simp] theorem State.setSt_keyIn (s : State) (u : Byte) : (s.setSt u).keyIn = s.keyIn := rfl
@[simp] theorem State.setSt_randomIn (s : State) (u : Byte) : (s.setSt u).randomIn = s.randomIn := rfl
@[simp] theorem State.setSt_draws (s : State) (u : Byte) : (s.setSt u).draws = s.draws := rfl
@[simp] theorem State.setSt_byte (s : State) (u : Byte) (b : Nat) : (s.setSt u).byte b = s.byte b := rfl
@[simp] theorem State.setSt_reg (s : State) (u : Byte) (q : Reg) : (s.setSt u).reg q = s.reg q := rfl
@[simp] theorem State.setSt_effAddr (s : State) (u : Byte) (n : Nat) : (s.setSt u).effAddr n = s.effAddr n := rfl

/-! ### setDisp -/

@[simp] theorem State.setDisp_mem (s : State) (d : Display) : (s.setDisp d).mem = s.mem := rfl
@[simp] theorem State.setDisp_v (s : State) (d : Display) : (s.setDisp d).v = s.v := rfl
@[simp] theorem State.setDisp_i (s : State) (d : Display) : (s.setDisp d).i = s.i := rfl
@[simp] theorem State.setDisp_pc (s : State) (d : Display) : (s.setDisp d).pc = s.pc := rfl
@[simp] theorem State.setDisp_stack (s : State) (d : Display) : (s.setDisp d).stack = s.stack := rfl
@[simp] theorem State.setDisp_sp (s : State) (d : Display) : (s.setDisp d).sp = s.sp := rfl
@[simp] theorem State.setDisp_dt (s : State) (d : Display) : (s.setDisp d).dt = s.dt := rfl
@[simp] theorem State.setDisp_st (s : State) (d : Display) : (s.setDisp d).st = s.st := rfl
@[simp] theorem State.setDisp_cyc (s : State) (d : Display) : (s.setDisp d).cyc = s.cyc := rfl
@[simp] theorem State.setDisp_disp (s : State) (d : Display) : (s.setDisp d).disp = d := rfl
@[simp] theorem State.setDisp_keys (s : State) (d : Display) : (s.setDisp d).keys = s.keys := rfl
@[simp] theorem State.setDisp_wait (s : State) (d : Display) : (s.setDisp d).wait = s.wait := rfl
@[simp] theorem State.setDisp_config (s : State) (d : Display) : (s.setDisp d).config = s.config := rfl
@[simp] theorem State.setDisp_signal (s : State) (d : Display) : (s.setDisp d).signal = s.signal := rfl
@[simp] theorem State.setDisp_keyIn (s : State) (d : Display) : (s.setDisp d).keyIn = s.keyIn := rfl
@[simp] theorem State.setDisp_randomIn (s : State) (d : Display) : (s.setDisp d).randomIn = s.randomIn := rfl
@[simp] theorem State.setDisp_draws (s : State) (d : Display) : (s.setDisp d).draws = s.draws := rfl
@[simp] theorem State.setDisp_byte (s : State) (d : Display) (b : Nat) : (s.setDisp d).byte b = s.byte b := rfl
@[simp] theorem State.setDisp_reg (s : State) (d : Display) (q : Reg) : (s.setDisp d).reg q = s.reg q := rfl
@[simp] theorem State.setDisp_effAddr (s : State) (d : Display) (n : Nat) : (s.setDisp d).effAddr n = s.effAddr n := rfl

/-! ### setWait -/

@[simp] theorem State.setWait_mem (s : State) (w : Option Reg) : (s.setWait w).mem = s.mem := rfl
@[simp] theorem State.setWait_v (s : State) (w : Option Reg) : (s.setWait w).v = s.v := rfl
@[simp] theorem State.setWait_i (s : State) (w : Option Reg) : (s.setWait w).i = s.i := rfl
@[simp] theorem State.setWait_pc (s : State) (w : Option Reg) : (s.setWait w).pc = s.pc := rfl
@[simp] theorem State.setWait_stack (s : State) (w : Option Reg) : (s.setWait w).stack = s.stack := rfl
@[simp] theorem State.setWait_sp (s : State) (w : Option Reg) : (s.setWait w).sp = s.sp := rfl
@[simp] theorem State.setWait_dt (s : State) (w : Option Reg) : (s.setWait w).dt = s.dt := rfl
@[simp] theorem State.setWait_st (s : State) (w : Option Reg) : (s.setWait w).st = s.st := rfl
@[simp] theorem State.setWait_cyc (s : State) (w : Option Reg) : (s.setWait w).cyc = s.cyc := rfl
@[simp] theorem State.setWait_disp (s : State) (w : Option Reg) : (s.setWait w).disp = s.disp := rfl
@[simp] theorem State.setWait_keys (s : State) (w : Option Reg) : (s.setWait w).keys = s.keys := rfl
@[simp] theorem State.setWait_wait (s : State) (w : Option Reg) : (s.setWait w).wait = w := rfl
@[simp] theorem State.setWait_config (s : State) (w : Option Reg) : (s.setWait w).config = s.config := rfl
@[simp] theorem State.setWait_signal (s : State) (w : Option Reg) : (s.setWait w).signal = s.signal := rfl
@[simp] theorem State.setWait_keyIn (s : State) (w : Option Reg) : (s.setWait w).keyIn = s.keyIn := rfl
@[simp] theorem State.setWait_randomIn (s : State) (w : Option Reg) : (s.setWait w).randomIn = s.randomIn := rfl
@[simp] theorem State.setWait_draws (s : State) (w : Option Reg) : (s.setWait w).draws = s.draws := rfl
@[simp] theorem State.setWait_byte (s : State) (w : Option Reg) (b : Nat) : (s.setWait w).byte b = s.byte b := rfl
@[simp] theorem State.setWait_reg (s : State) (w : Option Reg) (q : Reg) : (s.setWait w).reg q = s.reg q := rfl
@[simp] theorem State.setWait_effAddr (s : State) (w : Option Reg) (n : Nat) : (s.setWait w).effAddr n = s.effAddr n := rfl

/-! ### emit -/

@[simp] theorem State.emit_mem (s : State) (g : Signal) : (s.emit g).mem = s.mem := rfl
@[simp] theorem State.emit_v (s : State) (g : Signal) : (s.emit g).v = s.v := rfl
@[simp] theorem State.emit_i (s : State) (g : Signal) : (s.emit g).i = s.i := rfl
@[simp] theorem State.emit_pc (s : State) (g : Signal) : (s.emit g).pc = s.pc := rfl
@[simp] theorem State.emit_stack (s : State) (g : Signal) : (s.emit g).stack = s.stack := rfl
@[simp] theorem State.emit_sp (s : State) (g : Signal) : (s.emit g).sp = s.sp := rfl
@[simp] theorem State.emit_dt (s : State) (g : Signal) : (s.emit g).dt = s.dt := rfl
@[simp] theorem State.emit_st (s : State) (g : Signal) : (s.emit g).st = s.st := rfl
@[simp] theorem State.emit_cyc (s : State) (g : Signal) : (s.emit g).cyc = s.cyc := rfl
@[simp] theorem State.emit_disp (s : State) (g : Signal) : (s.emit g).disp = s.disp := rfl
@[simp] theorem State.emit_keys (s : State) (g : Signal) : (s.emit g).keys = s.keys := rfl
@[simp] theorem State.emit_wait (s : State) (g : Signal) : (s.emit g).wait = s.wait := rfl
@[simp] theorem State.emit_config (s : State) (g : Signal) : (s.emit g).config = s.config := rfl
@[simp] theorem State.emit_signal (s : State) (g : Signal) : (s.emit g).signal = g := rfl
@[simp] theorem State.emit_keyIn (s : State) (g : Signal) : (s.emit g).keyIn = s.keyIn := rfl
@[simp] theorem State.emit_randomIn (s : State) (g : Signal) : (s.emit g).randomIn = s.randomIn := rfl
@[simp] theorem State.emit_draws (s : State) (g : Signal) : (s.emit g).draws = s.draws := rfl
@[simp] theorem State.emit_byte (s : State) (g : Signal) (b : Nat) : (s.emit g).byte b = s.byte b := rfl
@[simp] theorem State.emit_reg (s : State) (g : Signal) (q : Reg) : (s.emit g).reg q = s.reg q := rfl
@[simp] theorem State.emit_effAddr (s : State) (g : Signal) (n : Nat) : (s.emit g).effAddr n = s.effAddr n := rfl

/-! ### drawn -/

@[simp] theorem State.drawn_mem (s : State) : (s.drawn).mem = s.mem := rfl
@[simp] theorem State.drawn_v (s : State) : (s.drawn).v = s.v := rfl
@[simp] theorem State.drawn_i (s : State) : (s.drawn).i = s.i := rfl
@[simp] theorem State.drawn_pc (s : State) : (s.drawn).pc = s.pc := rfl
@[simp] theorem State.drawn_stack (s : State) : (s.drawn).stack = s.stack := rfl
@[simp] theorem State.drawn_sp (s : State) : (s.drawn).sp = s.sp := rfl
@[simp] theorem State.drawn_dt (s : State) : (s.drawn).dt = s.dt := rfl
@[simp] theorem State.drawn_st (s : State) : (s.drawn).st = s.st := rfl
@[simp] theorem State.drawn_cyc (s : State) : (s.drawn).cyc = s.cyc := rfl
@[simp] theorem State.drawn_disp (s : State) : (s.drawn).disp = s.disp := rfl
@[simp] theorem State.drawn_keys (s : State) : (s.drawn).keys = s.keys := rfl
@[simp] theorem State.drawn_wait (s : State) : (s.drawn).wait = s.wait := rfl
@[simp] theorem State.drawn_config (s : State) : (s.drawn).config = s.config := rfl
@[simp] theorem State.drawn_signal (s : State) : (s.drawn).signal = s.signal := rfl
@[simp] theorem State.drawn_keyIn (s : State) : (s.drawn).keyIn = s.keyIn := rfl
@[simp] theorem State.drawn_randomIn (s : State) : (s.drawn).randomIn = s.randomIn.tail := rfl
@[simp] theorem State.drawn_draws (s : State) : (s.drawn).draws = s.draws + 1 := rfl
@[simp] theorem State.drawn_byte (s : State) (b : Nat) : (s.drawn).byte b = s.byte b := rfl
@[simp] theorem State.drawn_reg (s : State) (q : Reg) : (s.drawn).reg q = s.reg q := rfl
@[simp] theorem State.drawn_effAddr (s : State) (n : Nat) : (s.drawn).effAddr n = s.effAddr n := rfl

/-! ### clock -/

@[simp] theorem State.clock_mem (s : State) : (s.clock).mem = s.mem := rfl
@[simp] theorem State.clock_v (s : State) : (s.clock).v = s.v := rfl
@[simp] theorem State.clock_i (s : State) : (s.clock).i = s.i := rfl
@[simp] theorem State.clock_pc (s : State) : (s.clock).pc = s.pc := rfl
@[simp] theorem State.clock_stack (s : State) : (s.clock).stack = s.stack := rfl
@[simp] theorem State.clock_sp (s : State) : (s.clock).sp = s.sp := rfl
@[simp] theorem State.clock_dt (s : State) : (s.clock).dt = tickTimer (tickDue s.config (s.cyc + 1)) s.dt := rfl
@[simp] theorem State.clock_st (s : State) : (s.clock).st = tickTimer (tickDue s.config (s.cyc + 1)) s.st := rfl
@[simp] theorem State.clock_cyc (s : State) : (s.clock).cyc = s.cyc + 1 := rfl
@[simp] theorem State.clock_disp (s : State) : (s.clock).disp = s.disp := rfl
@[simp] theorem State.clock_keys (s : State) : (s.clock).keys = s.keys := rfl
@[simp] theorem State.clock_wait (s : State) : (s.clock).wait = s.wait := rfl
@[simp] theorem State.clock_config (s : State) : (s.clock).config = s.config := rfl
@[simp] theorem State.clock_signal (s : State) : (s.clock).signal = s.signal := rfl
@[simp] theorem State.clock_keyIn (s : State) : (s.clock).keyIn = s.keyIn := rfl
@[simp] theorem State.clock_randomIn (s : State) : (s.clock).randomIn = s.randomIn := rfl
@[simp] theorem State.clock_draws (s : State) : (s.clock).draws = s.draws := rfl
@[simp] theorem State.clock_byte (s : State) (b : Nat) : (s.clock).byte b = s.byte b := rfl
@[simp] theorem State.clock_reg (s : State) (q : Reg) : (s.clock).reg q = s.reg q := rfl
@[simp] theorem State.clock_effAddr (s : State) (n : Nat) : (s.clock).effAddr n = s.effAddr n := rfl

/-! ### writeKey -/

@[simp] theorem State.writeKey_mem (s : State) (k : Reg) (on : Bool) : (s.writeKey k on).mem = s.mem := rfl
@[simp] theorem State.writeKey_v (s : State) (k : Reg) (on : Bool) : (s.writeKey k on).v = s.v := rfl
@[simp] theorem State.writeKey_i (s : State) (k : Reg) (on : Bool) : (s.writeKey k on).i = s.i := rfl
@[simp] theorem State.writeKey_pc (s : State) (k : Reg) (on : Bool) : (s.writeKey k on).pc = s.pc := rfl
@[simp] theorem State.writeKey_stack (s : State) (k : Reg) (on : Bool) : (s.writeKey k on).stack = s.stack := rfl
@[simp] theorem State.writeKey_sp (s : State) (k : Reg) (on : Bool) : (s.writeKey k on).sp = s.sp := rfl
@[simp] theorem State.writeKey_dt (s : State) (k : Reg) (on : Bool) : (s.writeKey k on).dt = s.dt := rfl
@[simp] theorem State.writeKey_st (s : State) (k : Reg) (on : Bool) : (s.writeKey k on).st = s.st := rfl
@[simp] theorem State.writeKey_cyc (s : State) (k : Reg) (on : Bool) : (s.writeKey k on).cyc = s.cyc := rfl
@[simp] theorem State.writeKey_disp (s : State) (k : Reg) (on : Bool) : (s.writeKey k on).disp = s.disp := rfl
@[simp] theorem State.writeKey_keys (s : State) (k : Reg) (on : Bool) : (s.writeKey k on).keys = s.keys.set k.val on k.isLt := rfl
@[simp] theorem State.writeKey_wait (s : State) (k : Reg) (on : Bool) : (s.writeKey k on).wait = s.wait := rfl
@[simp] theorem State.writeKey_config (s : State) (k : Reg) (on : Bool) : (s.writeKey k on).config = s.config := rfl
@[simp] theorem State.writeKey_signal (s : State) (k : Reg) (on : Bool) : (s.writeKey k on).signal = s.signal := rfl
@[simp] theorem State.writeKey_keyIn (s : State) (k : Reg) (on : Bool) : (s.writeKey k on).keyIn = s.keyIn := rfl
@[simp] theorem State.writeKey_randomIn (s : State) (k : Reg) (on : Bool) : (s.writeKey k on).randomIn = s.randomIn := rfl
@[simp] theorem State.writeKey_draws (s : State) (k : Reg) (on : Bool) : (s.writeKey k on).draws = s.draws := rfl
@[simp] theorem State.writeKey_byte (s : State) (k : Reg) (on : Bool) (b : Nat) : (s.writeKey k on).byte b = s.byte b := rfl
@[simp] theorem State.writeKey_reg (s : State) (k : Reg) (on : Bool) (q : Reg) : (s.writeKey k on).reg q = s.reg q := rfl
@[simp] theorem State.writeKey_effAddr (s : State) (k : Reg) (on : Bool) (n : Nat) : (s.writeKey k on).effAddr n = s.effAddr n := rfl

/-! ### injectRandom -/

@[simp] theorem State.injectRandom_mem (s : State) (u : Byte) : (s.injectRandom u).mem = s.mem := rfl
@[simp] theorem State.injectRandom_v (s : State) (u : Byte) : (s.injectRandom u).v = s.v := rfl
@[simp] theorem State.injectRandom_i (s : State) (u : Byte) : (s.injectRandom u).i = s.i := rfl
@[simp] theorem State.injectRandom_pc (s : State) (u : Byte) : (s.injectRandom u).pc = s.pc := rfl
@[simp] theorem State.injectRandom_stack (s : State) (u : Byte) : (s.injectRandom u).stack = s.stack := rfl
@[simp] theorem State.injectRandom_sp (s : State) (u : Byte) : (s.injectRandom u).sp = s.sp := rfl
@[simp] theorem State.injectRandom_dt (s : State) (u : Byte) : (s.injectRandom u).dt = s.dt := rfl
@[simp] theorem State.injectRandom_st (s : State) (u : Byte) : (s.injectRandom u).st = s.st := rfl
@[simp] theorem State.injectRandom_cyc (s : State) (u : Byte) : (s.injectRandom u).cyc = s.cyc := rfl
@[simp] theorem State.injectRandom_disp (s : State) (u : Byte) : (s.injectRandom u).disp = s.disp := rfl
@[simp] theorem State.injectRandom_keys (s : State) (u : Byte) : (s.injectRandom u).keys = s.keys := rfl
@[simp] theorem State.injectRandom_wait (s : State) (u : Byte) : (s.injectRandom u).wait = s.wait := rfl
@[simp] theorem State.injectRandom_config (s : State) (u : Byte) : (s.injectRandom u).config = s.config := rfl
@[simp] theorem State.injectRandom_signal (s : State) (u : Byte) : (s.injectRandom u).signal = s.signal := rfl
@[simp] theorem State.injectRandom_keyIn (s : State) (u : Byte) : (s.injectRandom u).keyIn = s.keyIn := rfl
@[simp] theorem State.injectRandom_randomIn (s : State) (u : Byte) : (s.injectRandom u).randomIn = s.randomIn ++ [u] := rfl
@[simp] theorem State.injectRandom_draws (s : State) (u : Byte) : (s.injectRandom u).draws = s.draws := rfl
@[simp] theorem State.injectRandom_byte (s : State) (u : Byte) (b : Nat) : (s.injectRandom u).byte b = s.byte b := rfl
@[simp] theorem State.injectRandom_reg (s : State) (u : Byte) (q : Reg) : (s.injectRandom u).reg q = s.reg q := rfl
@[simp] theorem State.injectRandom_effAddr (s : State) (u : Byte) (n : Nat) : (s.injectRandom u).effAddr n = s.effAddr n := rfl

/-! ### queueKey -/

@[simp] theorem State.queueKey_mem (s : State) (k : Reg) : (s.queueKey k).mem = s.mem := rfl
@[simp] theorem State.queueKey_v (s : State) (k : Reg) : (s.queueKey k).v = s.v := rfl
@[simp] theorem State.queueKey_i (s : State) (k : Reg) : (s.queueKey k).i = s.i := rfl
@[simp] theorem State.queueKey_pc (s : State) (k : Reg) : (s.queueKey k).pc = s.pc := rfl
@[simp] theorem State.queueKey_stack (s : State) (k : Reg) : (s.queueKey k).stack = s.stack := rfl
@[simp] theorem State.queueKey_sp (s : State) (k : Reg) : (s.queueKey k).sp = s.sp := rfl
@[simp] theorem State.queueKey_dt (s : State) (k : Reg) : (s.queueKey k).dt = s.dt := rfl
@[simp] theorem State.queueKey_st (s : State) (k : Reg) : (s.queueKey k).st = s.st := rfl
@[simp] theorem State.queueKey_cyc (s : State) (k : Reg) : (s.queueKey k).cyc = s.cyc := rfl
@[simp] theorem State.queueKey_disp (s : State) (k : Reg) : (s.queueKey k).disp = s.disp := rfl
@[simp] theorem State.queueKey_keys (s : State) (k : Reg) : (s.queueKey k).keys = s.keys := rfl
@[simp] theorem State.queueKey_wait (s : State) (k : Reg) : (s.queueKey k).wait = s.wait := rfl
@[simp] theorem State.queueKey_config (s : State) (k : Reg) : (s.queueKey k).config = s.config := rfl
@[simp] theorem State.queueKey_signal (s : State) (k : Reg) : (s.queueKey k).signal = s.signal := rfl
@[simp] theorem State.queueKey_keyIn (s : State) (k : Reg) : (s.queueKey k).keyIn = s.keyIn ++ [k] := rfl
@[simp] theorem State.queueKey_randomIn (s : State) (k : Reg) : (s.queueKey k).randomIn = s.randomIn := rfl
@[simp] theorem State.queueKey_draws (s : State) (k : Reg) : (s.queueKey k).draws = s.draws := rfl
@[simp] theorem State.queueKey_byte (s : State) (k : Reg) (b : Nat) : (s.queueKey k).byte b = s.byte b := rfl
@[simp] theorem State.queueKey_reg (s : State) (k : Reg) (q : Reg) : (s.queueKey k).reg q = s.reg q := rfl
@[simp] theorem State.queueKey_effAddr (s : State) (k : Reg) (n : Nat) : (s.queueKey k).effAddr n = s.effAddr n := rfl

end Sys2Proof.Machine
end

