-- ==== Sys2Proof/Laws/Ops.lean ====
section
/-! SUPPORT. For each shared operation, one lemma that says everything it can do: registers, memory ranges, the stack, the flag,
the skips and the endings. -/

namespace Sys2Proof.Machine

/-! ### Registers -/

/-- Reading after writing a register. -/
theorem State.reg_setReg (s : State) (r q : Reg) (u : Byte) : (s.setReg r u).reg q = if q = r then u else s.reg q := by
  simp only [State.reg, State.setReg, Fin.getElem_fin, Vector.getElem_set]
  by_cases h : q = r
  · subst h; simp
  · simp only [if_neg h]
    rw [if_neg (fun hv => h (Fin.ext hv.symm))]

@[simp] theorem State.reg_setReg_self (s : State) (r : Reg) (u : Byte) : (s.setReg r u).reg r = u := by
  rw [State.reg_setReg, if_pos rfl]

theorem State.reg_setReg_of_ne (s : State) {r q : Reg} (u : Byte) (h : q ≠ r) : (s.setReg r u).reg q = s.reg q := by
  rw [State.reg_setReg, if_neg h]

/-- What register `r` holds after a register file is filled from register `k` on. -/
theorem getElem_fillRegs (v : Vector Byte 16) (k : Nat) (bs : List Byte) (r : Reg) :
    (fillRegs v k bs)[r] = if h : k ≤ r.val ∧ r.val < k + bs.length then bs[r.val - k]'(by omega) else v[r] := by
  induction bs generalizing v k with
  | nil => rw [dif_neg (by simp only [List.length_nil]; omega)]; rfl
  | cons u rest ih =>
    rw [fillRegs, ih]
    have hr := r.isLt
    by_cases hk : k = r.val
    · rw [dif_neg (by omega), dif_pos (by omega), dif_pos ⟨by omega, by simp only [List.length_cons]; omega⟩]
      simp [hk]
    · have keep : (if h : k < 16 then v.set k u h else v)[r] = v[r] := by
        split
        · simp [hk]
        · rfl
      by_cases h : k + 1 ≤ r.val ∧ r.val < k + 1 + rest.length
      · rw [dif_pos h, dif_pos ⟨by omega, by simp only [List.length_cons]; omega⟩]
        rw [List.getElem_cons, dif_neg (by omega)]
        congr 1
      · rw [dif_neg h, keep, dif_neg (by simp only [List.length_cons]; omega)]

/-- What register `r` holds after loading a list of bytes from register `k` on. -/
theorem State.reg_setRegsFrom (s : State) (k : Nat) (bs : List Byte) (r : Reg) :
    (s.setRegsFrom k bs).reg r =
      if h : k ≤ r.val ∧ r.val < k + bs.length then bs[r.val - k]'(by omega) else s.reg r :=
  getElem_fillRegs s.v k bs r

/-! ### Ranges of memory -/

@[simp] theorem State.length_bytesAt (s : State) (a n : Nat) : (s.bytesAt a n).length = n :=
  Memory.length_readBytes _ _ _ _

theorem State.getElem_bytesAt (s : State) (a n k : Nat) (h : k < (s.bytesAt a n).length) :
    (s.bytesAt a n)[k] = s.byte (a + k) := Memory.getElem_readBytes _ _ _ _ _ h

/-- A range is loaded exactly when it ends below 4096. -/
theorem State.load?_eq_some (s : State) (a n : Nat) (bs : List Byte) :
    s.load? a n = some bs ↔ a + n ≤ 4096 ∧ s.bytesAt a n = bs := by
  unfold State.load?; split <;> simp_all

theorem State.load?_eq_none (s : State) (a n : Nat) : s.load? a n = none ↔ 4096 < a + n := by
  unfold State.load?; split <;> simp_all

/-- A range is stored exactly when it ends below 4096. -/
theorem State.store?_eq_some (s t : State) (a : Nat) (bs : List Byte) :
    s.store? a bs = some t ↔ a + bs.length ≤ 4096 ∧ s.putBytes a bs = t := by
  unfold State.store?; split <;> simp_all

theorem State.store?_eq_none (s : State) (a : Nat) (bs : List Byte) : s.store? a bs = none ↔ 4096 < a + bs.length := by
  unfold State.store?; split <;> simp_all

theorem State.byte_putBytes_outside (s : State) (a b : Nat) (bs : List Byte) (h : ¬(a ≤ b ∧ b < a + bs.length)) :
    (s.putBytes a bs).byte b = s.byte b := Memory.read_writeBytes_outside _ _ _ _ _ h

theorem State.byte_putBytes_inside (s : State) (a k : Nat) (bs : List Byte) (h : k < bs.length) :
    (s.putBytes a bs).byte (a + k) = bs[k] := Memory.read_writeBytes_inside _ _ _ _ _ h

/-! ### The stack -/

/-- Pushing: the one entry at SP is written and SP goes up, or the stack is full. -/
theorem State.push?_cases (s : State) (w : Word) :
    (∃ h : s.sp.val < 16, s.push? w =
      some { s with stack := s.stack.set s.sp.val w h, sp := ⟨s.sp.val + 1, Nat.succ_lt_succ h⟩ }) ∨
    (s.sp.val = 16 ∧ s.push? w = none) := by
  have := s.sp.isLt
  by_cases h : s.sp.val < 16
  · exact .inl ⟨h, by simp [State.push?, h]⟩
  · exact .inr ⟨by omega, by simp [State.push?, h]⟩

/-- Popping: the entry below SP and SP goes down, or the stack is empty. -/
theorem State.pop?_cases (s : State) :
    (∃ j : Fin 16, s.sp.val = j.val + 1 ∧ s.pop? = some (s.stack[j], { s with sp := ⟨j.val, by omega⟩ })) ∨
    (s.sp.val = 0 ∧ s.pop? = none) := by
  have := s.sp.isLt
  by_cases h : 0 < s.sp.val
  · refine .inl ⟨⟨s.sp.val - 1, by omega⟩, by simp; omega, ?_⟩
    simp [State.pop?, h]
  · exact .inr ⟨by omega, by simp [State.pop?, h]⟩

/-! ### Timers -/

theorem toNat_tickTimer (due : Bool) (t : Byte) : (tickTimer due t).toNat = t.toNat - (if due then 1 else 0) := by
  unfold tickTimer
  split
  · subst t; simp
  · rename_i h
    split
    · have : t.toNat ≠ 0 := fun e => h (BitVec.eq_of_toNat_eq (by simpa using e))
      have := t.isLt
      rw [BitVec.toNat_sub]
      simp; omega
    · simp

/-! ### Random input -/

theorem State.randomByte_of_injected (s : State) (r : Byte) (rest : List Byte) (h : s.randomIn = r :: rest) :
    s.randomByte = r := by simp [State.randomByte, h]

/-! ### Shared endings of meanings -/

@[simp] theorem complete_eq_next (g : Signal) (s t : State) : complete g s = .next t ↔ s.emit g = t := by
  simp [complete]

@[simp] theorem complete_ne_fault (g : Signal) (s : State) (f : Fault) : complete g s ≠ .fault f := by simp [complete]

@[simp] theorem complete_ne_refused (g : Signal) (s : State) (r : Refusal) : complete g s ≠ .refused r := by simp [complete]

@[simp] theorem raise_eq_fault (c : State → Fault) (s : State) (f : Fault) : raise c s = .fault f ↔ c (s.emit .crash) = f := by
  simp [raise]

@[simp] theorem raise_ne_next (c : State → Fault) (s t : State) : raise c s ≠ .next t := by simp [raise]

@[simp] theorem raise_ne_refused (c : State → Fault) (s : State) (r : Refusal) : raise c s ≠ .refused r := by simp [raise]

/-- A store at I: all of it with PC advanced, or the crash with nothing stored. -/
theorem storeAtIndex_cases (bs : List Byte) (s : State) :
    (s.effAddr 0 + bs.length ≤ 4096 ∧
      storeAtIndex bs s = complete .none ((s.putBytes (s.effAddr 0) bs).advance 2)) ∨
    (4096 < s.effAddr 0 + bs.length ∧ storeAtIndex bs s = raise .memoryOutOfBounds s) := by
  by_cases h : s.effAddr 0 + bs.length ≤ 4096
  · exact .inl ⟨h, by simp [storeAtIndex, State.store?, h, indexDone]⟩
  · exact .inr ⟨by omega, by simp [storeAtIndex, State.store?, h]⟩

/-- The key a register names, or none when its value is 16 or more. -/
theorem keyIndex?_cases (u : Byte) :
    (∃ k : Reg, u.toNat = k.val ∧ keyIndex? u = some k) ∨ (16 ≤ u.toNat ∧ keyIndex? u = none) := by
  by_cases h : u.toNat < 16
  · exact .inl ⟨⟨u.toNat, h⟩, rfl, by simp [keyIndex?, h]⟩
  · exact .inr ⟨by omega, by simp [keyIndex?, h]⟩

/-- A register-load: the registers from memory with PC advanced, or the crash with nothing loaded. -/
theorem execLdVxMem_cases (x : Reg) (s : State) :
    (s.effAddr 0 + (x.val + 1) ≤ 4096 ∧
      execLdVxMem x s = complete .none ((s.setRegsFrom 0 (s.bytesAt (s.effAddr 0) (x.val + 1))).advance 2)) ∨
    (4096 < s.effAddr 0 + (x.val + 1) ∧ execLdVxMem x s = raise .memoryOutOfBounds s) := by
  by_cases h : s.effAddr 0 + (x.val + 1) ≤ 4096
  · exact .inl ⟨h, by simp [execLdVxMem, State.load?, h, indexDone]⟩
  · exact .inr ⟨by omega, by simp [execLdVxMem, State.load?, h]⟩

end Sys2Proof.Machine
end

