-- ==== Sys2Proof/Laws/Screen.lean ====
section
/-! SUPPORT. The sprite compositor, loop by loop: which pixels a row and a sprite flip, and when the collision detector fires. -/

namespace Sys2Proof.Machine

theorem Display.pixel_flip (d : Display) (px qx : Fin 64) (py qy : Fin 32) :
    (d.flip px py).pixel qx qy = if px = qx ∧ py = qy then !(d.pixel px py) else d.pixel qx qy := by
  simp only [Display.pixel, Display.flip, Fin.getElem_fin, Vector.getElem_set]
  by_cases hx : px = qx
  · subst hx
    by_cases hy : py = qy
    · subst hy; simp
    · simp only [if_true, true_and, if_neg hy, Vector.getElem_set]
      rw [if_neg (fun e => hy (Fin.ext e))]
  · have hv : px.val ≠ qx.val := fun e => hx (Fin.ext e)
    simp [hv, hx]

theorem Display.pixel_blank (px : Fin 64) (py : Fin 32) : Display.pixel Display.blank px py = false := by
  simp [Display.pixel, Display.blank]

theorem wrapColumn_eq_iff (m n : Nat) : wrapColumn m = wrapColumn n ↔ m % 64 = n % 64 := by
  simp [wrapColumn]

theorem wrapRow_eq_iff (m n : Nat) : wrapRow m = wrapRow n ↔ m % 32 = n % 32 := by
  simp [wrapRow]

/-- A set bit of columns `c` to `c + k - 1` of the row byte lands on pixel (qx, qy). -/
def BitsLand (b : Byte) (xs : Nat) (py : Fin 32) (k c : Nat) (qx : Fin 64) (qy : Fin 32) : Prop :=
  ∃ j, c ≤ j ∧ j < c + k ∧ b.getLsbD (7 - j) = true ∧ wrapColumn (xs + j) = qx ∧ py = qy

theorem bitsLand_succ (b : Byte) (xs : Nat) (py : Fin 32) (k c : Nat) (qx : Fin 64) (qy : Fin 32) :
    BitsLand b xs py (k + 1) c qx qy ↔
      (b.getLsbD (7 - c) = true ∧ wrapColumn (xs + c) = qx ∧ py = qy) ∨ BitsLand b xs py k (c + 1) qx qy := by
  constructor
  · rintro ⟨j, h1, h2, h3, h4, h5⟩
    by_cases hj : j = c
    · subst hj; exact .inl ⟨h3, h4, h5⟩
    · exact .inr ⟨j, by omega, by omega, h3, h4, h5⟩
  · rintro (⟨h3, h4, h5⟩ | ⟨j, h1, h2, h3, h4, h5⟩)
    · exact ⟨c, le_refl c, by omega, h3, h4, h5⟩
    · exact ⟨j, by omega, by omega, h3, h4, h5⟩

/-- The columns of one row are different pixels, so a later bit does not land where the first one did. -/
theorem not_bitsLand_later (b : Byte) (xs : Nat) (py qy : Fin 32) (k c : Nat) (hk : k + 1 ≤ 64) :
    ¬BitsLand b xs py k (c + 1) (wrapColumn (xs + c)) qy := by
  rintro ⟨j, h1, h2, -, h4, -⟩
  rw [wrapColumn_eq_iff] at h4
  omega

theorem pixel_composeBits (b : Byte) (xs : Nat) (py : Fin 32) (k c : Nat) (cv : Canvas) (hk : k ≤ 64) (qx : Fin 64)
    (qy : Fin 32) :
    (BitsLand b xs py k c qx qy → (composeBits b xs py k c cv).disp.pixel qx qy = !(cv.disp.pixel qx qy)) ∧
    (¬BitsLand b xs py k c qx qy → (composeBits b xs py k c cv).disp.pixel qx qy = cv.disp.pixel qx qy) := by
  induction k generalizing c cv with
  | zero => exact ⟨fun ⟨j, h1, h2, _⟩ => absurd h2 (by omega), fun _ => rfl⟩
  | succ k ih =>
    rw [composeBits, bitsLand_succ]
    have ih' := ih (c + 1) (if b.getLsbD (7 - c) then cv.land (wrapColumn (xs + c)) py else cv) (by omega)
    by_cases hb : b.getLsbD (7 - c) = true
    · rw [if_pos hb] at ih' ⊢
      by_cases hq : wrapColumn (xs + c) = qx ∧ py = qy
      · obtain ⟨rfl, rfl⟩ := hq
        refine ⟨fun _ => ?_, fun h => absurd (.inl ⟨hb, rfl, rfl⟩) h⟩
        rw [ih'.2 (not_bitsLand_later b xs py py k c hk)]
        simp [Canvas.land, Display.pixel_flip]
      · have same : (cv.land (wrapColumn (xs + c)) py).disp.pixel qx qy = cv.disp.pixel qx qy := by
          simp only [Canvas.land, Display.pixel_flip, if_neg hq]
        rw [same] at ih'
        exact ⟨fun h => ih'.1 (h.resolve_left (fun e => hq e.2)), fun h => ih'.2 (fun e => h (.inr e))⟩
    · rw [if_neg hb] at ih' ⊢
      exact ⟨fun h => ih'.1 (h.resolve_left (fun e => hb e.1)), fun h => ih'.2 (fun e => h (.inr e))⟩

theorem hit_composeBits (b : Byte) (xs : Nat) (py : Fin 32) (k c : Nat) (cv : Canvas) (hk : k ≤ 64) :
    (composeBits b xs py k c cv).hit = true ↔
      cv.hit = true ∨ ∃ qx qy, BitsLand b xs py k c qx qy ∧ cv.disp.pixel qx qy = true := by
  induction k generalizing c cv with
  | zero =>
    refine ⟨.inl, ?_⟩
    rintro (h | ⟨_, _, ⟨j, h1, h2, _⟩, _⟩)
    · exact h
    · omega
  | succ k ih =>
    rw [composeBits, ih (c + 1) _ (by omega)]
    by_cases hb : b.getLsbD (7 - c) = true
    · rw [if_pos hb]
      constructor
      · rintro (h | ⟨qx, qy, hl, hp⟩)
        · simp only [Canvas.land, Bool.or_eq_true] at h
          rcases h with h | h
          · exact .inl h
          · exact .inr ⟨_, _, (bitsLand_succ ..).2 (.inl ⟨hb, rfl, rfl⟩), h⟩
        · refine .inr ⟨qx, qy, (bitsLand_succ ..).2 (.inr hl), ?_⟩
          have : ¬(wrapColumn (xs + c) = qx ∧ py = qy) := by
            rintro ⟨rfl, rfl⟩; exact not_bitsLand_later b xs py py k c hk hl
          simpa only [Canvas.land, Display.pixel_flip, if_neg this] using hp
      · rintro (h | ⟨qx, qy, hl, hp⟩)
        · exact .inl (by simp [Canvas.land, h])
        · rcases (bitsLand_succ ..).1 hl with ⟨-, rfl, rfl⟩ | hl
          · exact .inl (by simp [Canvas.land, hp])
          · refine .inr ⟨qx, qy, hl, ?_⟩
            have : ¬(wrapColumn (xs + c) = qx ∧ py = qy) := by
              rintro ⟨rfl, rfl⟩; exact not_bitsLand_later b xs py py k c hk hl
            simpa only [Canvas.land, Display.pixel_flip, if_neg this] using hp
    · rw [if_neg hb]
      simp only [bitsLand_succ, hb, Bool.false_eq_true, false_and, false_or]

/-- One sprite row flips exactly the pixels its set bits land on. -/
theorem pixel_composeRow (b : Byte) (xs : Nat) (py : Fin 32) (cv : Canvas) (qx : Fin 64) (qy : Fin 32) :
    (BitsLand b xs py 8 0 qx qy → (composeRow b xs py cv).disp.pixel qx qy = !(cv.disp.pixel qx qy)) ∧
    (¬BitsLand b xs py 8 0 qx qy → (composeRow b xs py cv).disp.pixel qx qy = cv.disp.pixel qx qy) :=
  pixel_composeBits b xs py 8 0 cv (by omega) qx qy

/-- One sprite row collides exactly when a set bit lands on a set pixel. -/
theorem hit_composeRow (b : Byte) (xs : Nat) (py : Fin 32) (cv : Canvas) :
    (composeRow b xs py cv).hit = true ↔
      cv.hit = true ∨ ∃ qx qy, BitsLand b xs py 8 0 qx qy ∧ cv.disp.pixel qx qy = true :=
  hit_composeBits b xs py 8 0 cv (by omega)

/-- A set bit of rows `r` to `r + k - 1` of the sprite lands on pixel (qx, qy). -/
def RowsLand (s : State) (xs ys k r : Nat) (qx : Fin 64) (qy : Fin 32) : Prop :=
  ∃ q, r ≤ q ∧ q < r + k ∧ BitsLand (s.byte (s.effAddr q)) xs (wrapRow (ys + q)) 8 0 qx qy

theorem rowsLand_succ (s : State) (xs ys k r : Nat) (qx : Fin 64) (qy : Fin 32) :
    RowsLand s xs ys (k + 1) r qx qy ↔
      BitsLand (s.byte (s.effAddr r)) xs (wrapRow (ys + r)) 8 0 qx qy ∨ RowsLand s xs ys k (r + 1) qx qy := by
  constructor
  · rintro ⟨q, h1, h2, h3⟩
    by_cases hq : q = r
    · subst hq; exact .inl h3
    · exact .inr ⟨q, by omega, by omega, h3⟩
  · rintro (h3 | ⟨q, h1, h2, h3⟩)
    · exact ⟨r, le_refl r, by omega, h3⟩
    · exact ⟨q, by omega, by omega, h3⟩

/-- The rows of one sprite are different rows of the display. -/
theorem not_rowsLand_later (s : State) (xs ys k r : Nat) (hk : k + 1 ≤ 32) {qx : Fin 64} {qy : Fin 32}
    (h : BitsLand (s.byte (s.effAddr r)) xs (wrapRow (ys + r)) 8 0 qx qy) : ¬RowsLand s xs ys k (r + 1) qx qy := by
  obtain ⟨_, -, -, -, -, h5⟩ := h
  rintro ⟨q, h1, h2, _, -, -, -, -, h6⟩
  rw [← h5, wrapRow_eq_iff] at h6
  omega

/-- The compositor over `k` rows that all lie inside memory: it ends well, flips exactly the pixels set bits land on, and the
collision detector fires exactly when one of those was set. -/
theorem composeRows_ok (s : State) (xs ys k r : Nat) (cv : Canvas) (hk : k ≤ 32) (hin : ∀ q, r ≤ q → q < r + k → s.effAddr q ≤ 4095) :
    ∃ out, composeRows s xs ys k r cv = .ok out ∧
      (∀ qx qy, (RowsLand s xs ys k r qx qy → out.disp.pixel qx qy = !(cv.disp.pixel qx qy)) ∧
        (¬RowsLand s xs ys k r qx qy → out.disp.pixel qx qy = cv.disp.pixel qx qy)) ∧
      (out.hit = true ↔ cv.hit = true ∨ ∃ qx qy, RowsLand s xs ys k r qx qy ∧ cv.disp.pixel qx qy = true) := by
  induction k generalizing r cv with
  | zero =>
    refine ⟨cv, rfl, fun qx qy => ⟨fun ⟨q, h1, h2, _⟩ => absurd h2 (by omega), fun _ => rfl⟩, .inl, ?_⟩
    rintro (h | ⟨_, _, ⟨q, h1, h2, _⟩, _⟩)
    · exact h
    · omega
  | succ k ih =>
    rw [composeRows, if_pos (hin r (le_refl r) (by omega))]
    obtain ⟨out, ho, hpix, hhit⟩ :=
      ih (r + 1) (composeRow (s.byte (s.effAddr r)) xs (wrapRow (ys + r)) cv) (by omega)
        (fun q h1 h2 => hin q (by omega) (by omega))
    have row := pixel_composeRow (s.byte (s.effAddr r)) xs (wrapRow (ys + r)) cv
    have rowHit := hit_composeRow (s.byte (s.effAddr r)) xs (wrapRow (ys + r)) cv
    refine ⟨out, ho, fun qx qy => ?_, ?_⟩
    · rw [rowsLand_succ]
      refine ⟨?_, fun h => ?_⟩
      · rintro (h | h)
        · rw [(hpix qx qy).2 (not_rowsLand_later s xs ys k r hk h), (row qx qy).1 h]
        · rw [(hpix qx qy).1 h, (row qx qy).2 (fun e => not_rowsLand_later s xs ys k r hk e h)]
      · rw [(hpix qx qy).2 (fun e => h (.inr e)), (row qx qy).2 (fun e => h (.inl e))]
    · rw [hhit, rowHit]
      constructor
      · rintro ((h | ⟨qx, qy, hl, hp⟩) | ⟨qx, qy, hl, hp⟩)
        · exact .inl h
        · exact .inr ⟨qx, qy, (rowsLand_succ ..).2 (.inl hl), hp⟩
        · refine .inr ⟨qx, qy, (rowsLand_succ ..).2 (.inr hl), ?_⟩
          rwa [(row qx qy).2 (fun e => not_rowsLand_later s xs ys k r hk e hl)] at hp
      · rintro (h | ⟨qx, qy, hl, hp⟩)
        · exact .inl (.inl h)
        · rcases (rowsLand_succ ..).1 hl with hl | hl
          · exact .inl (.inr ⟨qx, qy, hl, hp⟩)
          · refine .inr ⟨qx, qy, hl, ?_⟩
            rwa [(row qx qy).2 (fun e => not_rowsLand_later s xs ys k r hk e hl)]

/-- When the compositor fails: exactly when a row lies above 4095, and then it has composed the rows before the first such row. -/
theorem composeRows_error (s : State) (xs ys k r : Nat) (cv out : Canvas) (h : composeRows s xs ys k r cv = .error out) :
    ∃ m, m < k ∧ 4095 < s.effAddr (r + m) ∧ (∀ q, r ≤ q → q < r + m → s.effAddr q ≤ 4095) ∧
      composeRows s xs ys m r cv = .ok out := by
  induction k generalizing r cv with
  | zero => simp [composeRows] at h
  | succ k ih =>
    rw [composeRows] at h
    split at h
    · rename_i hr
      obtain ⟨m, h1, h2, h3, h4⟩ := ih (r + 1) _ h
      refine ⟨m + 1, by omega, by rwa [show r + (m + 1) = r + 1 + m by omega], fun q hq hq' => ?_, ?_⟩
      · by_cases hqr : q = r
        · subst hqr; exact hr
        · exact h3 q (by omega) (by omega)
      · rw [composeRows, if_pos hr, h4]
    · exact ⟨0, by omega, by simpa using by omega, fun q h1 h2 => absurd h2 (by omega), by simpa [composeRows] using h⟩

/-- The compositor ends well only when every row lies inside memory. -/
theorem composeRows_ok_bounds (s : State) (xs ys k r : Nat) (cv out : Canvas) (h : composeRows s xs ys k r cv = .ok out) :
    ∀ q, r ≤ q → q < r + k → s.effAddr q ≤ 4095 := by
  induction k generalizing r cv with
  | zero => intro q h1 h2; omega
  | succ k ih =>
    rw [composeRows] at h
    split at h
    · intro q h1 h2
      by_cases hqr : q = r
      · subst hqr; assumption
      · exact ih (r + 1) _ h q (by omega) (by omega)
    · cases h

/-- The compositor reads nothing of the state but I and memory. -/
theorem composeRows_congr (s t : State) (hi : t.i = s.i) (hb : ∀ a, t.byte a = s.byte a) (xs ys k r : Nat) (cv : Canvas) :
    composeRows t xs ys k r cv = composeRows s xs ys k r cv := by
  induction k generalizing r cv with
  | zero => rfl
  | succ k ih =>
    have he : t.effAddr r = s.effAddr r := by simp only [State.effAddr, hi]
    rw [composeRows, composeRows, he, hb, ih]

end Sys2Proof.Machine
end

