-- ==== Sys2Proof/Laws/Step.lean ====
section
/-! SUPPORT. Everything a step can do, said once; and that a placed instruction is the one the next step runs. -/

namespace Sys2Proof.Machine

/-- The fetch: the two bytes at PC, or none when either lies above 4095. -/
theorem State.fetch?_eq (s : State) :
    s.fetch? = if s.pc.toNat ≤ 4094 then some [s.byte s.pc.toNat, s.byte (s.pc.toNat + 1)] else none := by
  unfold State.fetch? State.load?
  split <;> split <;> first | rfl | omega

/-- The word at PC. -/
def State.wordAtPc (s : State) : Word := wordOfBytes (s.byte s.pc.toNat) (s.byte (s.pc.toNat + 1))

/-- The step of the core when no key wait is pending. -/
theorem step_eq (s : State) (hw : s.wait = none) :
    step s = if s.pc.toNat ≤ 4094 then
        (match decodeWord s.wordAtPc with
        | some i => exec i s.clock
        | none => raise .unrecognizedOpcode s.clock)
      else raise .fetchOutOfBounds s := by
  by_cases hpc : s.pc.toNat ≤ 4094
  · simp only [step, hw, State.fetch?_eq, if_pos hpc, decode, State.wordAtPc]
    cases decodeWord (wordOfBytes (s.byte s.pc.toNat) (s.byte (s.pc.toNat + 1))) <;> rfl
  · simp only [step, hw, State.fetch?_eq, if_neg hpc]

/-- There is no step while a key wait is pending. -/
theorem step_waiting (s : State) (x : Reg) (hw : s.wait = some x) : step s = .refused .stepWhileWaiting := by simp [step, hw]

/-- Everything a step that answers a next state did: no key wait was pending and it ran the fetched instruction on the ticked
state. -/
theorem step_next_cases {s t : State} (h : step s = .next t) : ∃ i, Fetches s i ∧ exec i s.clock = .next t := by
  cases hw : s.wait with
  | some x => rw [step_waiting s x hw] at h; cases h
  | none =>
    rw [step_eq s hw] at h
    split at h
    · rename_i hpc
      cases hd : decodeWord s.wordAtPc with
      | none => rw [hd] at h; simp at h
      | some i => rw [hd] at h; exact ⟨i, ⟨hw, by omega, hd⟩, h⟩
    · simp at h

/-- Everything a step that crashes did: the fetch lay outside memory, the word is no instruction, or the fetched instruction's
handler crashed on the ticked state. -/
theorem step_fault_cases {s : State} {f : Fault} (h : step s = .fault f) :
    s.wait = none ∧
    ((4094 < s.pc.toNat ∧ f = .fetchOutOfBounds (s.emit .crash)) ∨
     (s.pc.toNat ≤ 4094 ∧ decodeWord s.wordAtPc = none ∧ f = .unrecognizedOpcode (s.clock.emit .crash)) ∨
     (∃ i, Fetches s i ∧ exec i s.clock = .fault f)) := by
  cases hw : s.wait with
  | some x => rw [step_waiting s x hw] at h; cases h
  | none =>
    refine ⟨rfl, ?_⟩
    rw [step_eq s hw] at h
    split at h
    · rename_i hpc
      cases hd : decodeWord s.wordAtPc with
      | none => rw [hd] at h; simp at h; exact .inr (.inl ⟨hpc, rfl, h.symm⟩)
      | some i => rw [hd] at h; exact .inr (.inr ⟨i, ⟨hw, by omega, hd⟩, h⟩)
    · simp at h; exact .inl ⟨by omega, h.symm⟩

/-- Everything the host's contract move can be: the delivery of the next queued key, or a step. -/
theorem drive_cases (s : State) :
    (∃ x k rest, s.wait = some x ∧ s.keyIn = k :: rest ∧ drive s = .next ({ s with keyIn := rest }.deliverKey x k)) ∨
    ((s.wait = none ∨ s.keyIn = []) ∧ drive s = step s) := by
  cases hw : s.wait with
  | none => exact .inr ⟨.inl rfl, by simp [drive, hw]⟩
  | some x =>
    cases hk : s.keyIn with
    | nil => exact .inr ⟨.inr rfl, by simp [drive, hw, hk]⟩
    | cons k rest => exact .inl ⟨x, k, rest, rfl, rfl, by simp [drive, keyEvent, hw, hk]⟩

/-- An instruction placed where the next step fetches is the one that step runs, and nothing else of the state was touched but
the bytes it lies in, a pending wait, and a PC outside memory. -/
theorem step_withFetchWord (s : State) (nbits w : Nat) (i : Instr) (h : decodeTableWord nbits w = some i) :
    step (s.withFetchWord nbits w) = exec i (s.withFetchWord nbits w).clock := by
  have hpc : s.fetchAddress.toNat ≤ 4094 := by unfold State.fetchAddress; split <;> simp_all
  rw [decodeTableWord_eq] at h
  have hw : (s.withFetchWord nbits w).wait = none := rfl
  have hp : (s.withFetchWord nbits w).pc = s.fetchAddress := rfl
  have b0 : (s.withFetchWord nbits w).byte s.fetchAddress.toNat = highByte (tableWord nbits w) :=
    State.byte_putBytes_inside _ _ 0 (bytesOfWord (tableWord nbits w)) (by simp [bytesOfWord])
  have b1 : (s.withFetchWord nbits w).byte (s.fetchAddress.toNat + 1) = lowByte (tableWord nbits w) :=
    State.byte_putBytes_inside _ _ 1 (bytesOfWord (tableWord nbits w)) (by simp [bytesOfWord])
  rw [step_eq _ hw, hp, if_pos hpc, State.wordAtPc, hp, b0, b1, wordOfBytes_high_low, h]

end Sys2Proof.Machine
end

