-- ==== Sys2Proof/Laws/Exec.lean ====
section
/-! SUPPORT. Everything an instruction can do, said once: it completes, or it crashes for its own cause with at most the display
changed; and the timers of the ticked state as numbers. -/

namespace Sys2Proof.Machine

/-- An instruction answers a next state exactly where its crash condition does not hold; otherwise it raises its own cause, and the
state the crash leaves differs at most in DISP, and that only for a draw. -/
theorem exec_cases (i : Instr) (s : State) :
    (∃ t, exec i s = .next t ∧ ¬CrashesOn i s) ∨
    (∃ c s', exec i s = raise c s' ∧ CrashesOn i s ∧ (∀ u, (c u).cause = handlerCause i) ∧ (∀ u, (c u).left = u) ∧
      s' = { s with disp := s'.disp } ∧ ((∀ x y n, i ≠ .drwVxVyN x y n) → s' = s)) := by
  cases i
  case ret =>
    rcases s.pop?_cases with ⟨j, hj, hp⟩ | ⟨hj, hp⟩
    · exact .inl ⟨_, by simp only [exec, execRet, hp, complete]; rfl, by simp [CrashesOn]; omega⟩
    · exact .inr ⟨_, _, by simp only [exec, execRet, hp]; rfl, by simpa [CrashesOn] using hj, fun _ => rfl, fun _ => rfl, rfl, fun _ => rfl⟩
  case callNnn =>
    rcases s.push?_cases s.pc with ⟨j, hp⟩ | ⟨hj, hp⟩
    · exact .inl ⟨_, by simp only [exec, execCallNnn, hp, complete]; rfl, by simp [CrashesOn]; omega⟩
    · exact .inr ⟨_, _, by simp only [exec, execCallNnn, hp]; rfl, by simpa [CrashesOn] using hj, fun _ => rfl, fun _ => rfl, rfl, fun _ => rfl⟩
  case drwVxVyN x y n =>
    cases hc : composeRows s (s.reg x).toNat (s.reg y).toNat n 0 { disp := s.disp, hit := false } with
    | ok cv => 
      refine .inl ⟨_, by simp only [exec, execDrwVxVyN, hc, complete]; rfl, ?_⟩
      rintro ⟨r, hr, hb⟩
      have := composeRows_ok_bounds _ _ _ _ _ _ _ hc r (by omega) (by omega)
      simp only [State.effAddr] at this; omega
    | error cv => 
      refine .inr ⟨_, _, by simp only [exec, execDrwVxVyN, hc]; rfl, ?_, fun _ => rfl, fun _ => rfl, rfl, fun h => absurd rfl (h x y n)⟩
      obtain ⟨m, h1, h2, -⟩ := composeRows_error _ _ _ _ _ _ _ hc
      exact ⟨m, h1, by simpa [State.effAddr] using h2⟩
  case skpVx x =>
    rcases keyIndex?_cases (s.reg x) with ⟨k, hk, he⟩ | ⟨hk, he⟩
    · exact .inl ⟨_, by simp only [exec, execSkpVx, keySkip, he, skipIf, complete]; rfl, by simp [CrashesOn]; omega⟩
    · exact .inr ⟨_, _, by simp only [exec, execSkpVx, keySkip, he]; rfl, by simpa [CrashesOn] using hk, fun _ => rfl, fun _ => rfl, rfl, fun _ => rfl⟩
  case sknpVx x =>
    rcases keyIndex?_cases (s.reg x) with ⟨k, hk, he⟩ | ⟨hk, he⟩
    · exact .inl ⟨_, by simp only [exec, execSknpVx, keySkip, he, skipIf, complete]; rfl, by simp [CrashesOn]; omega⟩
    · exact .inr ⟨_, _, by simp only [exec, execSknpVx, keySkip, he]; rfl, by simpa [CrashesOn] using hk, fun _ => rfl, fun _ => rfl, rfl, fun _ => rfl⟩
  case ldFVx x =>
    by_cases h : (s.reg x).toNat < 16
    · exact .inl ⟨_, by simp only [exec, execLdFVx, if_pos h, indexDone, complete]; rfl, by simp [CrashesOn]; omega⟩
    · exact .inr ⟨_, _, by simp only [exec, execLdFVx, if_neg h]; rfl, by simp [CrashesOn]; omega, fun _ => rfl, fun _ => rfl, rfl, fun _ => rfl⟩
  case ldBVx x =>
    rcases storeAtIndex_cases (bcdDigits (s.reg x)) s with ⟨hl, he⟩ | ⟨hl, he⟩
    · exact .inl ⟨_, by simp only [exec, execLdBVx, he, complete]; rfl, by simp [CrashesOn, bcdDigits, State.effAddr] at *; omega⟩
    · exact .inr ⟨_, _, by simp only [exec, execLdBVx, he]; rfl, by simp [CrashesOn, bcdDigits, State.effAddr] at *; omega, fun _ => rfl, fun _ => rfl, rfl, fun _ => rfl⟩
  case ldMemVx x =>
    have hlen : (s.regsUpTo x).length = x.val + 1 := by simp [State.regsUpTo]
    rcases storeAtIndex_cases (s.regsUpTo x) s with ⟨hl, he⟩ | ⟨hl, he⟩
    · exact .inl ⟨_, by simp only [exec, execLdMemVx, he, complete]; rfl, by simp [CrashesOn, hlen, State.effAddr] at *; omega⟩
    · exact .inr ⟨_, _, by simp only [exec, execLdMemVx, he]; rfl, by simp [CrashesOn, hlen, State.effAddr] at *; omega, fun _ => rfl, fun _ => rfl, rfl, fun _ => rfl⟩
  case ldVxMem x =>
    rcases execLdVxMem_cases x s with ⟨hl, he⟩ | ⟨hl, he⟩
    · exact .inl ⟨_, by simp only [exec, he, complete]; rfl, by simp [CrashesOn, State.effAddr] at *; omega⟩
    · exact .inr ⟨_, _, by simp only [exec, he]; rfl, by simp [CrashesOn, State.effAddr] at *; omega, fun _ => rfl, fun _ => rfl, rfl, fun _ => rfl⟩
  all_goals exact .inl ⟨_, rfl, by simp [CrashesOn]⟩

/-- The cycle count and the tick change nothing a crash condition reads. -/
theorem crashesOn_clock (i : Instr) (s : State) : CrashesOn i s.clock ↔ CrashesOn i s := by cases i <;> rfl

theorem State.toNat_clock_dt (s : State) :
    s.clock.dt.toNat = s.dt.toNat - (if (s.cyc + 1) % s.config.period = 0 then 1 else 0) := by
  simp [toNat_tickTimer, tickDue]

theorem State.toNat_clock_st (s : State) :
    s.clock.st.toNat = s.st.toNat - (if (s.cyc + 1) % s.config.period = 0 then 1 else 0) := by
  simp [toNat_tickTimer, tickDue]

@[simp] theorem State.length_regsUpTo (s : State) (x : Reg) : (s.regsUpTo x).length = x.val + 1 := by simp [State.regsUpTo]

/-- Entry `r` of the registers a register-dump stores is V[r]. -/
theorem State.getElem_regsUpTo (s : State) (x r : Reg) (h : r.val < (s.regsUpTo x).length) :
    (s.regsUpTo x)[r.val] = s.reg r := by
  simp [State.regsUpTo, State.reg]

end Sys2Proof.Machine
end

