-- ==== Sys2Proof/Laws/PerInstr.lean ====
section
/-! SUPPORT. Family RoundTrip, one lemma for each instruction: the word written for a well-formed instruction decodes to it
(30_encoding.md R96, R103). -/

namespace Sys2Proof.Laws.RoundTrip

/-- The word of a well-formed instruction decodes to that instruction. -/
def Statement (i : Instr) : Prop := i.wellFormed = true → decodeWord (encode i) = some i

theorem cls : Statement .cls := by
  intro _; decide

theorem ret : Statement .ret := by
  intro _; decide

theorem jpNnn (nnn : Addr) : Statement (.jpNnn nnn) := by
  intro _; simp [encode, decodeWord]

theorem callNnn (nnn : Addr) : Statement (.callNnn nnn) := by
  intro _; simp [encode, decodeWord]

theorem seVxKk (x : Reg) (kk : Byte) : Statement (.seVxKk x kk) := by
  intro _; simp [encode, decodeWord]

theorem sneVxKk (x : Reg) (kk : Byte) : Statement (.sneVxKk x kk) := by
  intro _; simp [encode, decodeWord]

theorem seVxVy (x y : Reg) : Statement (.seVxVy x y) := by
  intro _; simp [encode, decodeWord]

theorem ldVxKk (x : Reg) (kk : Byte) : Statement (.ldVxKk x kk) := by
  intro _; simp [encode, decodeWord]

theorem addVxKk (x : Reg) (kk : Byte) : Statement (.addVxKk x kk) := by
  intro _; simp [encode, decodeWord]

theorem ldVxVy (x y : Reg) : Statement (.ldVxVy x y) := by
  intro _; simp [encode, decodeWord, decodeFamily8]

theorem orVxVy (x y : Reg) : Statement (.orVxVy x y) := by
  intro _; simp [encode, decodeWord, decodeFamily8]

theorem andVxVy (x y : Reg) : Statement (.andVxVy x y) := by
  intro _; simp [encode, decodeWord, decodeFamily8]

theorem xorVxVy (x y : Reg) : Statement (.xorVxVy x y) := by
  intro _; simp [encode, decodeWord, decodeFamily8]

theorem addVxVy (x y : Reg) : Statement (.addVxVy x y) := by
  intro _; simp [encode, decodeWord, decodeFamily8]

theorem subVxVy (x y : Reg) : Statement (.subVxVy x y) := by
  intro _; simp [encode, decodeWord, decodeFamily8]

theorem shrVx (x : Reg) : Statement (.shrVx x) := by
  intro _; simp [encode, decodeWord, decodeFamily8]

theorem subnVxVy (x y : Reg) : Statement (.subnVxVy x y) := by
  intro _; simp [encode, decodeWord, decodeFamily8]

theorem shlVx (x : Reg) : Statement (.shlVx x) := by
  intro _; simp [encode, decodeWord, decodeFamily8]

theorem sneVxVy (x y : Reg) : Statement (.sneVxVy x y) := by
  intro _; simp [encode, decodeWord]

theorem ldINnn (nnn : Addr) : Statement (.ldINnn nnn) := by
  intro _; simp [encode, decodeWord]

theorem jpV0Nnn (nnn : Addr) : Statement (.jpV0Nnn nnn) := by
  intro _; simp [encode, decodeWord]

theorem rndVxKk (x : Reg) (kk : Byte) : Statement (.rndVxKk x kk) := by
  intro _; simp [encode, decodeWord]

theorem drwVxVyN (x y : Reg) (n : Nat) : Statement (.drwVxVyN x y n) := by
  intro h
  have hn : n % 16 = n := Nat.mod_eq_of_lt (by
    simp only [Instr.wellFormed, spriteHeightFits, decide_eq_true_eq] at h; omega)
  simp [encode, decodeWord, hn]

theorem skpVx (x : Reg) : Statement (.skpVx x) := by
  intro _; simp [encode, decodeWord, decodeFamilyE]

theorem sknpVx (x : Reg) : Statement (.sknpVx x) := by
  intro _; simp [encode, decodeWord, decodeFamilyE]

theorem ldVxDt (x : Reg) : Statement (.ldVxDt x) := by
  intro _; simp [encode, decodeWord, decodeFamilyF]

theorem ldVxK (x : Reg) : Statement (.ldVxK x) := by
  intro _; simp [encode, decodeWord, decodeFamilyF]

theorem ldDtVx (x : Reg) : Statement (.ldDtVx x) := by
  intro _; simp [encode, decodeWord, decodeFamilyF]

theorem ldStVx (x : Reg) : Statement (.ldStVx x) := by
  intro _; simp [encode, decodeWord, decodeFamilyF]

theorem addIVx (x : Reg) : Statement (.addIVx x) := by
  intro _; simp [encode, decodeWord, decodeFamilyF]

theorem ldFVx (x : Reg) : Statement (.ldFVx x) := by
  intro _; simp [encode, decodeWord, decodeFamilyF]

theorem ldBVx (x : Reg) : Statement (.ldBVx x) := by
  intro _; simp [encode, decodeWord, decodeFamilyF]

theorem ldMemVx (x : Reg) : Statement (.ldMemVx x) := by
  intro _; simp [encode, decodeWord, decodeFamilyF]

theorem ldVxMem (x : Reg) : Statement (.ldVxMem x) := by
  intro _; simp [encode, decodeWord, decodeFamilyF]

end Sys2Proof.Laws.RoundTrip
end

