-- ==== Sys2Proof/Tests/Slice0.lean ====
section
/-! SUPPORT. The tests: a smoke test of WellFormed, decoding of words written from the patterns of 30_encoding.md, at most two steps
of each instruction with the results of spec/95_test_vectors.md, and for each statement with hypotheses a witness that meets
them. -/

namespace Sys2Proof.Tests

open Sys2Proof.Machine

set_option Elab.async false

/-! ### Helpers -/

/-- The machine of the spec's vectors: CLOCK_RATE 480, so P = 8, and the default font. -/
def vectors : State := { State.reset with config := { rateAbove60 := 420, font := Config.defaultFont } }

/-- One step on the word `w` placed at PC. -/
def run (w : Nat) (s : State) : Result := step (s.withFetchWord 16 w)

/-- What `f` sees of the next state. -/
def sees {α : Type} (f : State → α) : Result → Option α
  | .next t => some (f t)
  | .fault _ | .refused _ => none

/-- The cause of a crash and what `f` sees of the state it leaves. -/
def crashSees {α : Type} (f : State → α) : Result → Option (Nat × α)
  | .fault c => some (c.cause, f c.left)
  | .next _ | .refused _ => none

/-- Whether a next state was answered. -/
def completes : Result → Bool
  | .next _ => true
  | .fault _ | .refused _ => false

/-- Whether a crash was answered. -/
def crashes : Result → Bool
  | .fault _ => true
  | .next _ | .refused _ => false

theorem exists_next {r : Result} (h : completes r = true) : ∃ t, r = .next t := by
  cases r with
  | next t => exact ⟨t, rfl⟩
  | fault f => cases h
  | refused q => cases h

theorem exists_fault {r : Result} (h : crashes r = true) : ∃ f, r = .fault f := by
  cases r with
  | next t => cases h
  | fault f => exact ⟨f, rfl⟩
  | refused q => cases h

/-- The set pixels. -/
def pixels (s : State) : List (Nat × Nat) :=
  (List.finRange 64).flatMap (fun px =>
    ((List.finRange 32).filter (fun py => s.readPixel px py)).map (fun py => (px.val, py.val)))

/-! ### WellFormed: each check refuses an ill-formed term -/

theorem test_wellFormed_refuses_height_16 : (Instr.drwVxVyN 1 2 16).wellFormed = false := by decide

theorem test_wellFormed_accepts_height_15 : (Instr.drwVxVyN 1 2 15).wellFormed = true := by decide

/-! ### Decoding: every instruction, the words of 95_test_vectors.md part 2, in families -/

theorem test_decode_family_0 :
    decodeWord 0x00E0#16 = some (.cls) ∧
    decodeWord 0x00EE#16 = some (.ret) := by decide

theorem test_decode_jumps_and_calls :
    decodeWord 0x1204#16 = some (.jpNnn 0x204) ∧
    decodeWord 0x1FFF#16 = some (.jpNnn 0xFFF) ∧
    decodeWord 0x2204#16 = some (.callNnn 0x204) ∧
    decodeWord 0xBFFF#16 = some (.jpV0Nnn 0xFFF) := by decide

theorem test_decode_skips :
    decodeWord 0x3A7F#16 = some (.seVxKk 10 0x7F) ∧
    decodeWord 0x4B00#16 = some (.sneVxKk 11 0x00) ∧
    decodeWord 0x5AB0#16 = some (.seVxVy 10 11) ∧
    decodeWord 0x9AB0#16 = some (.sneVxVy 10 11) := by decide

theorem test_decode_immediates :
    decodeWord 0x600A#16 = some (.ldVxKk 0 0x0A) ∧
    decodeWord 0x7F01#16 = some (.addVxKk 15 0x01) ∧
    decodeWord 0xC10F#16 = some (.rndVxKk 1 0x0F) ∧
    decodeWord 0xA2F0#16 = some (.ldINnn 0x2F0) := by decide

theorem test_decode_family_8 :
    decodeWord 0x8AB0#16 = some (.ldVxVy 10 11) ∧
    decodeWord 0x8AB1#16 = some (.orVxVy 10 11) ∧
    decodeWord 0x8AB2#16 = some (.andVxVy 10 11) ∧
    decodeWord 0x8AB3#16 = some (.xorVxVy 10 11) ∧
    decodeWord 0x8AB4#16 = some (.addVxVy 10 11) ∧
    decodeWord 0x8AB5#16 = some (.subVxVy 10 11) ∧
    decodeWord 0x8A06#16 = some (.shrVx 10) ∧
    decodeWord 0x8AB7#16 = some (.subnVxVy 10 11) ∧
    decodeWord 0x8A0E#16 = some (.shlVx 10) := by decide

theorem test_decode_ignored_bits :
    decodeWord 0x5AB7#16 = some (.seVxVy 10 11) ∧
    decodeWord 0x9AB1#16 = some (.sneVxVy 10 11) ∧
    decodeWord 0x8AB6#16 = some (.shrVx 10) ∧
    decodeWord 0x8ABE#16 = some (.shlVx 10) := by decide

theorem test_decode_draw :
    decodeWord 0xD12F#16 = some (.drwVxVyN 1 2 15) ∧
    decodeWord 0xD000#16 = some (.drwVxVyN 0 0 0) := by decide

theorem test_decode_family_E :
    decodeWord 0xE29E#16 = some (.skpVx 2) ∧
    decodeWord 0xEFA1#16 = some (.sknpVx 15) := by decide

theorem test_decode_family_F_timers_and_keys :
    decodeWord 0xF107#16 = some (.ldVxDt 1) ∧
    decodeWord 0xF20A#16 = some (.ldVxK 2) ∧
    decodeWord 0xF015#16 = some (.ldDtVx 0) ∧
    decodeWord 0xF518#16 = some (.ldStVx 5) := by decide

theorem test_decode_family_F_index :
    decodeWord 0xF21E#16 = some (.addIVx 2) ∧
    decodeWord 0xF029#16 = some (.ldFVx 0) ∧
    decodeWord 0xF033#16 = some (.ldBVx 0) ∧
    decodeWord 0xF855#16 = some (.ldMemVx 8) ∧
    decodeWord 0xFF65#16 = some (.ldVxMem 15) := by decide

/-- Words of 95_test_vectors.md part 9. -/
theorem test_decode_unrecognized :
    ([0x0000#16, 0x00E1#16, 0x01E0#16, 0x010E#16, 0x0FFF#16, 0x8008#16, 0x8129#16, 0x800F#16, 0xE000#16, 0xE09F#16, 0xE1A0#16,
      0xF000#16, 0xF1FF#16, 0xF066#16, 0xF01D#16].all (fun w => (decodeWord w).isNone)) = true := by decide

theorem test_decode_is_big_endian : decode [0x60#8, 0x0A#8, 0xFF#8] = .ok (.ldVxKk 0 0x0A, [0xFF#8]) := by rfl

theorem test_decode_refuses_one_byte : decode [0x60#8] = .error .truncated := by rfl

theorem test_decodeTableWord : decodeTableWord 16 0xD12F = some (.drwVxVyN 1 2 15) := by decide

/-! ### One step of each instruction: vectors of 95_test_vectors.md, parts 3 to 8 -/

theorem test_G1_cls :
    sees (fun t => (pixels t, t.signal, t.pc))
      (run 0x00E0 (vectors.setDisp ((Display.flip Display.blank 0 0).flip 63 31))) = some ([], .redraw, 0x202#16) := by
  decide +kernel

theorem test_T11_ret :
    sees (fun t => (t.pc, t.sp.val))
      (run 0x00EE ({ vectors with sp := 16, stack := (Vector.replicate 16 0x222#16).set 15 0x345#16 })) =
      some (0x347#16, 15) := by
  decide +kernel

theorem test_T9_ret :
    crashSees (fun t => (t.pc, t.cyc))
      (run 0x00EE vectors) =
      some (4, 0x200#16, 1) := by
  decide +kernel

theorem test_T1_jp :
    sees (fun t => (t.pc, t.sp.val))
      (run 0x1204 vectors) =
      some (0x204#16, 0) := by
  decide +kernel

theorem test_T6_call :
    sees (fun t => (t.pc, t.sp.val, t.stack[15]))
      (run 0x2204 ({ vectors with sp := 15 })) =
      some (0x204#16, 16, 0x200#16) := by
  decide +kernel

theorem test_T7_call :
    crashSees (fun t => (t.pc, t.sp.val))
      (run 0x2204 ({ vectors with sp := 16 })) =
      some (3, 0x200#16, 16) := by
  decide +kernel

theorem test_T17_se_imm :
    sees (fun t => t.pc)
      (run 0x3100 (vectors.setReg 1 0x04#8)) =
      some (0x202#16) := by
  decide +kernel

theorem test_T18_se_imm :
    sees (fun t => t.pc)
      (run 0x3FFF (vectors.setReg 15 0xFF#8)) =
      some (0x204#16) := by
  decide +kernel

theorem test_T19_sne_imm :
    sees (fun t => t.pc)
      (run 0x4211 (vectors.setReg 2 0x10#8)) =
      some (0x204#16) := by
  decide +kernel

theorem test_T20_sne_imm :
    sees (fun t => t.pc)
      (run 0x4210 (vectors.setReg 2 0x10#8)) =
      some (0x202#16) := by
  decide +kernel

theorem test_T23_se_reg :
    sees (fun t => t.pc)
      (run 0x5347 ((vectors.setReg 3 0x7F#8).setReg 4 0x7F#8)) =
      some (0x204#16) := by
  decide +kernel

theorem test_T22_se_reg :
    sees (fun t => t.pc)
      (run 0x5340 ((vectors.setReg 3 0x7F#8).setReg 4 0x7E#8)) =
      some (0x202#16) := by
  decide +kernel

theorem test_A1_ld_imm :
    sees (fun t => (t.reg 0, t.pc))
      (run 0x600A vectors) =
      some (0x0A#8, 0x202#16) := by
  decide +kernel

theorem test_A3_add_imm :
    sees (fun t => (t.reg 1, t.reg 15))
      (run 0x71FF ((vectors.setReg 1 0x05#8).setReg 15 0x01#8)) =
      some (0x04#8, 0x01#8) := by
  decide +kernel

theorem test_A7_ld_reg :
    sees (fun t => (t.reg 1, t.reg 2))
      (run 0x8120 (vectors.setReg 2 0x33#8)) =
      some (0x33#8, 0x33#8) := by
  decide +kernel

theorem test_A9_or :
    sees (fun t => (t.reg 1, t.reg 15))
      (run 0x8121 (((vectors.setReg 1 0xF0#8).setReg 2 0x0F#8).setReg 15 0x01#8)) =
      some (0xFF#8, 0x01#8) := by
  decide +kernel

theorem test_A10_and :
    sees (fun t => (t.reg 1, t.reg 15))
      (run 0x8122 (((vectors.setReg 1 0xF0#8).setReg 2 0x3C#8).setReg 15 0x01#8)) =
      some (0x30#8, 0x01#8) := by
  decide +kernel

theorem test_A11_xor :
    sees (fun t => (t.reg 1, t.reg 15))
      (run 0x8123 (((vectors.setReg 1 0xF0#8).setReg 2 0x3C#8).setReg 15 0x01#8)) =
      some (0xCC#8, 0x01#8) := by
  decide +kernel

theorem test_A14_add_reg :
    sees (fun t => (t.reg 1, t.reg 15))
      (run 0x8124 ((vectors.setReg 1 0xFF#8).setReg 2 0x01#8)) =
      some (0x00#8, 0x01#8) := by
  decide +kernel

theorem test_A18_add_reg :
    sees (fun t => t.reg 15)
      (run 0x8F14 ((vectors.setReg 15 0xFF#8).setReg 1 0x01#8)) =
      some (0x01#8) := by
  decide +kernel

theorem test_A21_sub :
    sees (fun t => (t.reg 1, t.reg 15))
      (run 0x8125 (((vectors.setReg 1 0x01#8).setReg 2 0x02#8).setReg 15 0x01#8)) =
      some (0xFF#8, 0x00#8) := by
  decide +kernel

theorem test_A22_sub :
    sees (fun t => (t.reg 1, t.reg 15))
      (run 0x8125 ((vectors.setReg 1 0x05#8).setReg 2 0x05#8)) =
      some (0x00#8, 0x01#8) := by
  decide +kernel

theorem test_A29_shr :
    sees (fun t => (t.reg 1, t.reg 15))
      (run 0x8176 ((vectors.setReg 1 0x05#8).setReg 7 0xEE#8)) =
      some (0x02#8, 0x01#8) := by
  decide +kernel

theorem test_A33_shr :
    sees (fun t => t.reg 15)
      (run 0x8F06 (vectors.setReg 15 0x03#8)) =
      some (0x00#8) := by
  decide +kernel

theorem test_A34_subn :
    sees (fun t => (t.reg 1, t.reg 15))
      (run 0x8127 (((vectors.setReg 1 0x02#8).setReg 2 0x01#8).setReg 15 0x01#8)) =
      some (0xFF#8, 0x00#8) := by
  decide +kernel

theorem test_A35_subn :
    sees (fun t => (t.reg 1, t.reg 15))
      (run 0x8127 ((vectors.setReg 1 0x01#8).setReg 2 0x03#8)) =
      some (0x02#8, 0x01#8) := by
  decide +kernel

theorem test_A43_shl :
    sees (fun t => (t.reg 1, t.reg 15))
      (run 0x81AE ((vectors.setReg 1 0x81#8).setReg 10 0x33#8)) =
      some (0x02#8, 0x01#8) := by
  decide +kernel

theorem test_A44_shl :
    sees (fun t => t.reg 15)
      (run 0x8F0E (vectors.setReg 15 0x80#8)) =
      some (0x02#8) := by
  decide +kernel

theorem test_T27_sne_reg :
    sees (fun t => t.pc)
      (run 0x934F ((vectors.setReg 3 0x01#8).setReg 4 0x02#8)) =
      some (0x204#16) := by
  decide +kernel

theorem test_T26_sne_reg :
    sees (fun t => t.pc)
      (run 0x9340 ((vectors.setReg 3 0x01#8).setReg 4 0x01#8)) =
      some (0x202#16) := by
  decide +kernel

theorem test_M2_ld_i :
    sees (fun t => (t.i, t.pc))
      (run 0xAFFF vectors) =
      some (0xFFF#16, 0x202#16) := by
  decide +kernel

theorem test_T13_jp_v0 :
    sees (fun t => t.pc)
      (run 0xBFFF (vectors.setReg 0 0xFF#8)) =
      some (0x10FE#16) := by
  decide +kernel

theorem test_T15_jp_v0 :
    sees (fun t => t.pc)
      (run 0xB123 (vectors.setReg 1 0x55#8)) =
      some (0x123#16) := by
  decide +kernel

theorem test_A47_rnd :
    sees (fun t => (t.reg 1, t.randomIn))
      (run 0xC10F (vectors.injectRandom 0xA7#8)) =
      some (0x07#8, []) := by
  decide +kernel

theorem test_G3_drw :
    sees (fun t => (pixels t, t.reg 15))
      (run 0xD121 ((((vectors.setI 0x210#16).setReg 1 0x3E#8).setReg 2 0x1F#8).putBytes 0x210 [0xE7#8])) =
      some ([(0, 31), (3, 31), (4, 31), (5, 31), (62, 31), (63, 31)], 0x00#8) := by
  decide +kernel

theorem test_G15_drw :
    crashSees (fun t => (pixels t, t.reg 15, t.pc))
      (run 0xD123 (((vectors.setI 0xFFE#16).setReg 15 0x01#8).putBytes 0xFFE [0x80#8, 0x40#8])) =
      some (8, [(0, 0), (1, 1)], 0x01#8, 0x200#16) := by
  decide +kernel

theorem test_K5_skp :
    sees (fun t => t.pc)
      (run 0xE29E ((vectors.setReg 2 0x07#8).writeKey 7 true)) =
      some (0x204#16) := by
  decide +kernel

theorem test_K8_skp :
    crashSees (fun t => t.pc)
      (run 0xE29E ((vectors.setReg 2 0x17#8).writeKey 7 true)) =
      some (5, 0x200#16) := by
  decide +kernel

theorem test_K9_sknp :
    sees (fun t => t.pc)
      (run 0xE2A1 (vectors.setReg 2 0x07#8)) =
      some (0x204#16) := by
  decide +kernel

theorem test_K10_sknp :
    sees (fun t => t.pc)
      (run 0xE2A1 ((vectors.setReg 2 0x07#8).writeKey 7 true)) =
      some (0x202#16) := by
  decide +kernel

theorem test_S4_ld_from_dt :
    sees (fun t => (t.reg 1, t.dt))
      (run 0xF107 ({ vectors with cyc := 7, dt := 5 })) =
      some (0x04#8, 0x04#8) := by
  decide +kernel

theorem test_K12_ld_key :
    sees (fun t => (t.wait, t.pc, t.signal))
      (run 0xF20A (vectors.writeKey 3 true)) =
      some (some 2, 0x202#16, .waitKey) := by
  decide +kernel

theorem test_S5_ld_dt :
    sees (fun t => (t.dt, t.cyc))
      (run 0xF015 (({ vectors with cyc := 7, dt := 5 }).setReg 0 0x09#8)) =
      some (9#8, 8) := by
  decide +kernel

theorem test_S6_ld_st :
    sees (fun t => (t.st, t.cyc))
      (run 0xF018 ({ vectors with cyc := 7, st := 1 })) =
      some (0#8, 8) := by
  decide +kernel

theorem test_M4_add_i :
    sees (fun t => (t.i, t.reg 15))
      (run 0xF01E ((vectors.setI 0xFFF#16).setReg 0 0x02#8)) =
      some (0x001#16, 0x00#8) := by
  decide +kernel

theorem test_M7_ld_f :
    sees (fun t => t.i)
      (run 0xF029 ((vectors.setI 0x123#16).setReg 0 0x0A#8)) =
      some (0x032#16) := by
  decide +kernel

theorem test_M10_ld_f :
    crashSees (fun t => (t.i, t.pc))
      (run 0xF029 ((vectors.setI 0x123#16).setReg 0 0x10#8)) =
      some (6, 0x123#16, 0x200#16) := by
  decide +kernel

theorem test_M16_ld_b :
    sees (fun t => (t.bytesAt 0xFFD 3, t.mem.length))
      (run 0xF533 (((vectors.setI 0xFFD#16).setReg 5 0x64#8).putBytes 0xFFD [0xAA#8, 0xAA#8, 0xAA#8])) =
      some ([0x01#8, 0x00#8, 0x00#8], 3) := by
  decide +kernel

theorem test_M17_ld_b :
    crashSees (fun t => (t.bytesAt 0xFFE 2, t.pc))
      (run 0xF033 ((vectors.setI 0xFFE#16).setReg 0 0xFF#8)) =
      some (7, [0x00#8, 0x00#8], 0x200#16) := by
  decide +kernel

theorem test_M19_ld_mem :
    sees (fun t => (t.bytesAt 0x300 3, t.i))
      (run 0xF155 ((((vectors.setI 0x300#16).setReg 0 0x11#8).setReg 1 0x22#8).setReg 2 0x33#8)) =
      some ([0x11#8, 0x22#8, 0x00#8], 0x300#16) := by
  decide +kernel

theorem test_M21_ld_mem :
    crashSees (fun t => t.byte 0xFF8)
      (run 0xF855 ((vectors.setI 0xFF8#16).setReg 0 0x01#8)) =
      some (7, 0x00#8) := by
  decide +kernel

theorem test_M24_ld_from_mem :
    sees (fun t => (t.regsUpTo 3, t.i))
      (run 0xF265 (((vectors.setI 0x300#16).setReg 3 0x99#8).putBytes 0x300 [0x02#8, 0x05#8, 0x05#8, 0x07#8])) =
      some ([0x02#8, 0x05#8, 0x05#8, 0x99#8], 0x300#16) := by
  decide +kernel

theorem test_M26_ld_from_mem :
    crashSees (fun t => t.reg 0)
      (run 0xFF65 (vectors.setI 0xFF1#16)) =
      some (7, 0x00#8) := by
  decide +kernel

/-! ### The step around the instruction -/

theorem test_S1_tick :
    sees (fun t => (t.dt, t.st, t.cyc)) (run 0x6000 { vectors with cyc := 7, dt := 5, st := 1 }) =
      some (4#8, 0#8, 8) := by decide +kernel

theorem test_S8_crash_keeps_tick :
    crashSees (fun t => (t.dt, t.cyc, t.pc)) (run 0x0000 { vectors with cyc := 7, dt := 5 }) =
      some (2, 4#8, 8, 0x200#16) := by decide +kernel

theorem test_S9_fetch_crash :
    crashSees (fun t => (t.dt, t.cyc, t.pc)) (step { vectors with pc := 0xFFF, cyc := 7, dt := 5 }) =
      some (1, 5#8, 7, 0xFFF#16) := by decide +kernel

theorem test_S11_last_address :
    sees (fun t => (t.reg 0, t.pc)) (run 0x6011 { vectors with pc := 0xFFE }) = some (0x11#8, 0x1000#16) := by
  decide +kernel

/-- After K12 in part 7. -/
theorem test_key_event :
    sees (fun t => (t.reg 2, t.wait, t.pc)) (keyEvent 7 (vectors.setWait (some 2))) = some (0x07#8, none, 0x200#16) := by
  decide +kernel

/-- D22: no step while WAIT is set, whatever the host has queued. -/
theorem test_step_while_waiting :
    step { vectors with wait := some 2, keyIn := [7] } = .refused .stepWhileWaiting := rfl

theorem test_construct_font_digit_A : vectors.bytesAt 50 5 = [0xF0#8, 0x90#8, 0xF0#8, 0x90#8, 0x90#8] := by decide +kernel

/-! ### Witnesses: for each statement with hypotheses, a concrete state and operands that meet them all, at the boundaries -/

/-- The vectors' machine with the word of `i` at PC. -/
def at_ (i : Instr) (s : State) : State := s.withFetchWord 16 (encode i).toNat

theorem witness_EncodedInstructionDecodesBack :
    (Instr.drwVxVyN 15 15 15).wellFormed = true ∧ (Instr.drwVxVyN 0 0 0).wellFormed = true ∧
    (Instr.ldVxMem 15).wellFormed = true := by decide

theorem witness_DecodedWordIsItsEncodingButForIgnoredBits :
    decodeWord 0x8AB6#16 = some (.shrVx 10) ∧ decodeWord 0x5ABF#16 = some (.seVxVy 10 11) := by decide

theorem witness_DecoderAgreesWithTheOpcodeMap :
    ⟨16, 0x8006, 0xF00F⟩ ∈ opcodeMap ∧ 0x8AB6#16 &&& 0xF00F#16 = 0x8006#16 ∧ 0x8AB5#16 &&& 0xF00F#16 ≠ 0x8006#16 := by decide

theorem witness_UnrecognizedWordsAreTheListedOnes :
    [0x00E1#16, 0x0FFF#16, 0x8008#16, 0x800F#16, 0xE09F#16, 0xF066#16].map decodeWord = List.replicate 6 none := by decide

theorem witness_StepRunsTheDecodedInstruction_fetches :
    Fetches { (vectors.putBytes 4094 [0x60#8, 0x11#8]) with pc := 4094 } (.ldVxKk 0 0x11) := by
  constructor <;> decide +kernel

theorem witness_StepRunsTheDecodedInstruction_unrecognized :
    vectors.wait = none ∧ vectors.pc.toNat + 1 ≤ 4095 ∧
    decodeWord (wordOfBytes (vectors.byte vectors.pc.toNat) (vectors.byte (vectors.pc.toNat + 1))) = none := by
  decide +kernel

theorem witness_FetchOutsideMemoryCrashes :
    (vectors.setPc 4095).wait = none ∧ 4094 < (vectors.setPc 4095).pc.toNat := by decide

theorem witness_EveryFetchedStepCountsOneCycle :
    (vectors.setPc 4094).wait = none ∧ (vectors.setPc 4094).pc.toNat ≤ 4094 ∧
    (∃ f, step (vectors.setPc 4094) = .fault f) ∧ ∃ t, run 0x6000 (vectors.setPc 4094) = .next t :=
  ⟨by decide, by decide, exists_fault (by decide +kernel), exists_next (by decide +kernel)⟩

/-- The least CLOCK_RATE, 60, with P = 1, and the vectors' 480 with P = 8. -/
theorem witness_TimersCountDownOnceEveryPeriod_rates :
    ({ rateAbove60 := 0, font := Config.defaultFont } : Config).clockRate = 60 ∧
    ({ rateAbove60 := 0, font := Config.defaultFont } : Config).period = 1 ∧
    vectors.config.clockRate = 480 ∧ vectors.config.period = 8 := by decide

theorem witness_TimersCountDownOnceEveryPeriod :
    Fetches (at_ (.ldVxDt 1) { vectors with cyc := 7, dt := 5 }) (.ldVxDt 1) ∧
    (∃ t, step (at_ (.ldVxDt 1) { vectors with cyc := 7, dt := 5 }) = .next t) ∧
    (∀ x y : Reg, Instr.ldVxDt x ≠ .ldDtVx y ∧ Instr.ldVxDt x ≠ .ldStVx y) :=
  ⟨by constructor <;> decide +kernel, exists_next (by decide +kernel), by intros; simp⟩

theorem witness_TheTickComesBeforeTheHandler :
    (7 + 1) % (vectors.config.clockRate / 60) = 0 ∧
    Fetches (at_ (.ldVxDt 1) { vectors with cyc := 7, dt := 5 }) (.ldVxDt 1) ∧
    Fetches (at_ (.ldDtVx 1) { vectors with cyc := 7, dt := 0 }) (.ldDtVx 1) ∧
    Fetches (at_ (.ldStVx 1) { vectors with cyc := 7, st := 1 }) (.ldStVx 1) :=
  ⟨by decide, by constructor <;> decide +kernel, by constructor <;> decide +kernel, by constructor <;> decide +kernel⟩

theorem witness_HandlerCrashChangesNothing :
    (∀ x y n, Instr.ret ≠ .drwVxVyN x y n) ∧ ∃ f, exec .ret vectors = .fault f :=
  ⟨by intros; simp, exists_fault (by decide +kernel)⟩

/-- One row inside memory, and none inside memory but the last row. -/
theorem witness_SpriteCrashKeepsTheRowsInsideMemory :
    (vectors.setI 4095).i.toNat < 4096 ∧ (∃ f, exec (.drwVxVyN 1 2 2) (vectors.setI 4095) = .fault f) ∧
    ∃ f, exec (.drwVxVyN 1 2 15) (vectors.setI 4082) = .fault f :=
  ⟨by decide, exists_fault (by decide +kernel), exists_fault (by decide +kernel)⟩

/-- Each of the eight causes occurs. -/
theorem witness_StepCrashesExactlyForTheListedCauses :
    (crashSees State.pc (step (vectors.setPc 4095))).map Prod.fst = some 1 ∧
    (crashSees State.pc (step (vectors.setPc 4094))).map Prod.fst = some 2 ∧
    (crashSees State.pc (run 0x2204 { vectors with sp := 16 })).map Prod.fst = some 3 ∧
    (crashSees State.pc (run 0x00EE vectors)).map Prod.fst = some 4 ∧
    (crashSees State.pc (run 0xE29E (vectors.setReg 2 16))).map Prod.fst = some 5 ∧
    (crashSees State.pc (run 0xF229 (vectors.setReg 2 16))).map Prod.fst = some 6 ∧
    (crashSees State.pc (run 0xF233 (vectors.setI 4094))).map Prod.fst = some 7 ∧
    (crashSees State.pc (run 0xD122 (vectors.setI 4095))).map Prod.fst = some 8 := by decide +kernel

/-- The same conditions one below the boundary: the step completes. -/
theorem witness_StepCompletesNextToEachCrash :
    completes (run 0x2204 { vectors with sp := 15 }) = true ∧ completes (run 0x00EE { vectors with sp := 1 }) = true ∧
    completes (run 0xE29E (vectors.setReg 2 15)) = true ∧ completes (run 0xF229 (vectors.setReg 2 15)) = true ∧
    completes (run 0xF233 (vectors.setI 4093)) = true ∧ completes (run 0xD121 (vectors.setI 4095)) = true := by
  decide +kernel

theorem witness_StepIsRefusedOnlyWhileAwaitingAKey :
    step (vectors.setWait (some 3)) = .refused .stepWhileWaiting ∧ (vectors.setWait (some 3)).wait.isSome = true ∧
    step { vectors with wait := some 3, keyIn := [15] } = .refused .stepWhileWaiting := ⟨rfl, rfl, rfl⟩

theorem witness_TheStepIgnoresTheLastSignal :
    (at_ (.ldVxKk 0 1) vectors).wait = none ∧ completes (step (at_ (.ldVxKk 0 1) vectors)) = true := by decide +kernel

theorem witness_EachInstructionReturnsItsSignal :
    (∃ t, exec (.drwVxVyN 1 2 0) vectors = .next t) ∧ (∃ t, exec (.ldVxK 1) vectors = .next t) ∧
    (∃ f, exec .ret vectors = .fault f) ∧ (∃ f, step (vectors.setPc 4095) = .fault f) ∧
    (∃ f, step (vectors.setPc 4094) = .fault f) ∧
    Fetches (at_ (.ldVxKk 0 1) vectors) (.ldVxKk 0 1) ∧ ∃ t, step (at_ (.ldVxKk 0 1) vectors) = .next t :=
  ⟨exists_next (by decide +kernel), exists_next (by decide +kernel), exists_fault (by decide +kernel),
    exists_fault (by decide +kernel), exists_fault (by decide +kernel), by constructor <;> decide +kernel,
    exists_next (by decide +kernel)⟩

/-- A state at the bounds of the invariant: I = 4095, PC = 4094, one live stack entry at 4094. -/
def edge : State :=
  { (vectors.putBytes 4094 [0x00#8, 0xEE#8]) with
    i := 4095, pc := 4094, sp := 1, stack := Vector.replicate 16 4094#16 }

theorem edge_inv : edge.Inv := by
  refine ⟨by decide +kernel, by decide, by decide, fun j _ => ?_, by decide⟩
  simp [edge]

theorem witness_EveryStepKeepsTheInvariant : edge.Inv ∧ ∃ t, step edge = .next t :=
  ⟨edge_inv, exists_next (by decide +kernel)⟩

/-- The moves of a run: a host write, a queued key, a step that begins a key wait, the host's contract move that ends it, an
injected byte, and a step that draws it. -/
def moves : List Move := [.writeKey 3 true, .queueKey 15, .step, .drive, .injectRandom 0x5A#8, .step]

/-- The state the moves start from. -/
def loaded : State := { State.reset with config := vectors.config }.putBytes 0x200 [0xF2#8, 0x0A#8, 0xC1#8, 0xFF#8]

theorem witness_EveryReachableStateMeetsTheInvariant :
    ∃ s, Reachable vectors.config [0xF2#8, 0x0A#8, 0xC1#8, 0xFF#8] s ∧ s.cyc = 2 ∧ s.reg 2 = 15#8 ∧ s.reg 1 = 0x5A#8 := by
  have h : sees (fun t => (t.cyc, t.reg 2, t.reg 1)) (play moves loaded) = some (2, 15#8, 0x5A#8) := by decide +kernel
  cases hp : play moves loaded with
  | next t =>
    rw [hp] at h
    simp only [sees, Option.some.injEq, Prod.mk.injEq] at h
    exact ⟨t, ⟨loaded, moves, rfl, hp⟩, h⟩
  | fault f => rw [hp] at h; cases h
  | refused r => rw [hp] at h; cases h

theorem edge_allEven : edge.AllEven := ⟨by decide, fun j _ => by simp [edge]⟩

/-- A return from the deepest even address, and a jump to an even target. -/
theorem witness_PcStaysEvenButForJumpTargets :
    edge.AllEven ∧ (∃ t, step edge = .next t) ∧ Fetches edge .ret ∧ loadedTarget .ret edge = none ∧
    Fetches (at_ (.callNnn 0x204) edge) (.callNnn 0x204) ∧ loadedTarget (.callNnn 0x204) edge = some 0x204 ∧
    (∃ t, step (at_ (.callNnn 0x204) edge) = .next t) ∧ loadedTarget (.jpNnn 0x203) edge = some 0x203 :=
  ⟨edge_allEven, exists_next (by decide +kernel), by constructor <;> decide +kernel, rfl,
    by constructor <;> decide +kernel, by decide, exists_next (by decide +kernel), by decide⟩

theorem witness_ConstructionGivesTheInitialImage :
    (List.replicate 3584 (0x00#8 : Byte)).length ≤ 3584 ∧ 3584 < (List.replicate 3585 (0x00#8 : Byte)).length := by
  simp only [List.length_replicate]; decide

theorem witness_EqualCanonicalMemoriesAreEqualLists :
    Memory.wf Config.defaultFont [(0, 0x00#8), (0x300, 0x02#8), (4095, 0xFF#8)] = true ∧
    Memory.wf Config.defaultFont [(0x300, 0x00#8)] = false ∧ Memory.wf Config.defaultFont [(0, 0xF0#8)] = false ∧
    Memory.wf Config.defaultFont [(4096, 0x01#8)] = false := by decide

theorem witness_EveryInstructionStaysInsideItsFootprint :
    (∃ t, exec (.ldMemVx 15) (vectors.setI 4080) = .next t) ∧ (∃ t, exec (.ldBVx 15) (vectors.setI 4093) = .next t) ∧
    ∃ t, exec (.drwVxVyN 15 15 15) vectors = .next t :=
  ⟨exists_next (by decide +kernel), exists_next (by decide +kernel), exists_next (by decide +kernel)⟩

theorem witness_OnlyDrawAndClearTouchTheDisplay_step :
    (sees (fun t => decide (t.disp = vectors.disp)) (run 0xD125 vectors)) = some false := by decide +kernel

theorem witness_OnlyDrawAndClearTouchTheDisplay_pair :
    (∀ x y n, Instr.cls ≠ .drwVxVyN x y n) ∧ SameButDisplay vectors (vectors.setDisp (Display.flip Display.blank 0 0)) ∧
    vectors ≠ vectors.setDisp (Display.flip Display.blank 0 0) :=
  ⟨by intros; simp, rfl, fun h => absurd (congrArg (fun s => s.readPixel 0 0) h) (by decide +kernel)⟩

/-- Two states that differ in the entry at SP, the first stale one. -/
theorem witness_StaleStackEntriesAreUnobservable :
    SameButStale { vectors with sp := 1 } { vectors with sp := 1, stack := vectors.stack.set 1 0x345 } ∧
    ({ vectors with sp := 1, stack := vectors.stack.set 1 0x345 } : State).stack[1] ≠ vectors.stack[1] := by
  refine ⟨⟨fun j hj => ?_, rfl⟩, by decide⟩
  have : j = 0 := Fin.ext (by simpa using hj)
  subst this; rfl

theorem witness_OnlyFlagWritersTouchVf :
    (∃ t, exec (.orVxVy 14 15) vectors = .next t) ∧ (Instr.orVxVy 14 15).row ∉ [14, 15, 16, 17, 18, 23] ∧
    vf ∉ (footprint (.orVxVy 14 15) vectors).regs ∧ (∃ t, exec (.shlVx 14) vectors = .next t) ∧ (14 : Reg) ≠ vf ∧
    ∃ t, exec (.drwVxVyN 15 15 15) vectors = .next t :=
  ⟨exists_next (by decide +kernel), by decide, by decide, exists_next (by decide +kernel), by decide,
    exists_next (by decide +kernel)⟩

theorem witness_StepKeepsKeysParametersAndIndex :
    sees (fun t => decide (t.i = vectors.i)) (run 0xA300 vectors) = some false ∧
    sees (fun t => decide (t.i = vectors.i)) (run 0xF11E (vectors.setReg 1 1)) = some false ∧
    sees (fun t => decide (t.i = vectors.i)) (run 0xF129 (vectors.setReg 1 1)) = some false := by decide +kernel

theorem witness_CallPushesItsOwnAddress :
    ({ vectors with sp := 16 } : State).sp.val = 16 ∧ ({ vectors with sp := 15 } : State).sp.val < 16 ∧
    vectors.sp.val < 16 := by decide

theorem witness_ReturnGoesPastThePoppedAddress :
    vectors.sp.val = 0 ∧ ({ vectors with sp := 1 } : State).sp.val = (0 : Fin 16).val + 1 ∧
    ({ vectors with sp := 16 } : State).sp.val = (15 : Fin 16).val + 1 := by decide

theorem witness_CallThenReturnResumesAfterTheCall :
    vectors.sp.val < 16 ∧ ({ vectors with sp := 15 } : State).sp.val < 16 := by decide

/-- The hypothesis of the five statements about flag writers whose destination is not VF. -/
theorem witness_AddRegistersSetsTheCarry : (0 : Reg) ≠ vf ∧ (14 : Reg) ≠ vf := by decide

theorem witness_SubtractSetsNoBorrow : (0 : Reg) ≠ vf ∧ (14 : Reg) ≠ vf := by decide

theorem witness_SubtractReversedSetsNoBorrow : (0 : Reg) ≠ vf ∧ (14 : Reg) ≠ vf := by decide

theorem witness_ShiftRightKeepsTheLostBit : (0 : Reg) ≠ vf ∧ (14 : Reg) ≠ vf := by decide

theorem witness_ShiftLeftKeepsTheLostBit : (0 : Reg) ≠ vf ∧ (14 : Reg) ≠ vf := by decide

theorem witness_RandomMasksOneFreshByte :
    (vectors.injectRandom 0xA7).randomIn = 0xA7#8 :: [] ∧ vectors.randomIn = [] := by decide

theorem witness_SetIndexToFontPointsAtTheGlyph :
    16 ≤ ((vectors.setReg 0 16).reg 0).toNat ∧ ((vectors.setReg 0 15).reg 0).toNat < 16 := by decide

theorem witness_StoreBcdWritesThreeDigits :
    4095 < (vectors.setI 4094).i.toNat + 2 ∧ (vectors.setI 4093).i.toNat + 2 ≤ 4095 := by decide

theorem witness_RegisterDumpStoresTheRegisters :
    4095 < (vectors.setI 4081).i.toNat + (15 : Reg).val ∧ (vectors.setI 4080).i.toNat + (15 : Reg).val ≤ 4095 ∧
    (vectors.setI 4095).i.toNat + (0 : Reg).val ≤ 4095 := by decide

theorem witness_RegisterLoadFillsTheRegisters :
    4095 < (vectors.setI 4095).i.toNat + (1 : Reg).val ∧ (vectors.setI 4080).i.toNat + (15 : Reg).val ≤ 4095 ∧
    (vectors.setI 4095).i.toNat + (0 : Reg).val ≤ 4095 := by decide

theorem witness_RegisterLoadInvertsRegisterDump :
    ∃ t u : State, exec (.ldMemVx 3) (vectors.setReg 2 0x33) = .next t ∧ u.mem = t.mem ∧ u.config = t.config ∧ u.i = t.i ∧
      u.reg 2 ≠ t.reg 2 := by
  obtain ⟨t, ht⟩ := exists_next (r := exec (.ldMemVx 3) (vectors.setReg 2 0x33)) (by decide +kernel)
  refine ⟨t, t.setReg 2 (t.reg 2 + 1), ht, rfl, rfl, rfl, ?_⟩
  rw [State.reg_setReg_self]
  have : ∀ b : Byte, b + 1 ≠ b := by decide
  exact this _

/-- The tallest sprite whose last row is the last byte of memory, with each kind of pixel, and the empty sprite. -/
theorem witness_DrawXorsTheSpriteAndFlagsCollision :
    (Instr.drwVxVyN 1 2 15).wellFormed = true ∧ (∀ r, r < 15 → (vectors.setI 4081).i.toNat + r ≤ 4095) ∧
    (Instr.drwVxVyN 1 2 0).wellFormed = true ∧ (∀ r, r < 0 → (vectors.setI 4095).i.toNat + r ≤ 4095) ∧
    SpriteSets vectors 63 31 5 63 31 ∧ ¬SpriteSets vectors 63 31 0 63 31 := by
  have : (vectors.setI 4081).i.toNat = 4081 := by decide
  exact ⟨by decide, fun r hr => by omega, by decide, fun r hr => absurd hr (by omega),
    ⟨0, 0, by decide, by decide, by decide, by decide, by decide +kernel⟩, fun ⟨r, _, h, _⟩ => absurd h (by omega)⟩

theorem witness_DrawXorsTheSpriteAndFlagsCollision_no_collision :
    ∀ px py, SpriteSets vectors 0 0 5 px py → vectors.readPixel px py = false :=
  fun px py _ => Display.pixel_blank px py

theorem witness_DrawXorsTheSpriteAndFlagsCollision_collision :
    ∃ px py, SpriteSets vectors 0 0 5 px py ∧ (vectors.setDisp (Display.flip Display.blank 0 0)).readPixel px py = true :=
  ⟨0, 0, ⟨0, 0, by decide, by decide, by decide, by decide, by decide +kernel⟩, by decide +kernel⟩

theorem witness_KeySkipsSampleTheKeyArray :
    16 ≤ ((vectors.setReg 2 16).reg 2).toNat ∧ ((vectors.setReg 2 15).reg 2).toNat = (15 : Reg).val ∧
    (vectors.reg 2).toNat = (0 : Reg).val := by decide

theorem witness_KeyEventEndsTheWait :
    ({ vectors with wait := some 15, keyIn := [15, 0] } : State).wait = some 15 ∧
    ({ vectors with wait := some 15, keyIn := [15, 0] } : State).keyIn = 15 :: [0] ∧
    sees (fun t => (t.reg 15, t.wait, t.keyIn)) (drive { vectors with wait := some 15, keyIn := [15, 0] }) =
      some (15#8, none, [0]) := by decide +kernel

end Sys2Proof.Tests
end

/-! SUPPORT. What no handler writes, whether it completes or crashes, and the cycle count of a step (40_step_dispatch.md R122). -/

namespace Sys2Proof.Machine

/-- The fields no instruction writes: CYC (counted before the handler, R122), KEYS and the queued keys (the host's), and the
machine's parameters. -/
def SameUnwritten (s t : State) : Prop := t.cyc = s.cyc ∧ t.keys = s.keys ∧ t.keyIn = s.keyIn ∧ t.config = s.config

/-- A skip on a key writes at most PC and the signal. -/
theorem keySkip_next_sameUnwritten {want : Bool} {x : Reg} {s t : State} (h : keySkip want x s = .next t) :
    SameUnwritten s t := by
  rcases keyIndex?_cases (s.reg x) with ⟨k, -, hk⟩ | ⟨-, hk⟩ <;> simp only [keySkip, hk] at h
  · cases h; exact ⟨rfl, rfl, rfl, rfl⟩
  · cases h

/-- A store at I writes at most memory, PC and the signal. -/
theorem storeAtIndex_next_sameUnwritten {bs : List Byte} {s t : State} (h : storeAtIndex bs s = .next t) :
    SameUnwritten s t := by
  rcases storeAtIndex_cases bs s with ⟨-, he⟩ | ⟨-, he⟩ <;> rw [he] at h
  · cases h; exact ⟨rfl, rfl, rfl, rfl⟩
  · cases h

/-- An instruction that completes writes none of those fields. The cases with a crash of their own are named; every other
instruction ends in `complete` on every path. -/
theorem exec_next_sameUnwritten {i : Instr} {s t : State} (h : exec i s = .next t) : SameUnwritten s t := by
  cases i
  case ret =>
    rcases s.pop?_cases with ⟨j, -, hp⟩ | ⟨-, hp⟩ <;> simp only [exec, execRet, hp] at h
    · cases h; exact ⟨rfl, rfl, rfl, rfl⟩
    · cases h
  case callNnn =>
    rcases s.push?_cases s.pc with ⟨hj, hp⟩ | ⟨-, hp⟩ <;> simp only [exec, execCallNnn, hp] at h
    · cases h; exact ⟨rfl, rfl, rfl, rfl⟩
    · cases h
  case drwVxVyN x y n =>
    simp only [exec, execDrwVxVyN] at h
    split at h
    · cases h; exact ⟨rfl, rfl, rfl, rfl⟩
    · cases h
  case ldFVx x =>
    simp only [exec, execLdFVx] at h
    split at h
    · cases h; exact ⟨rfl, rfl, rfl, rfl⟩
    · cases h
  case ldVxMem x =>
    rcases execLdVxMem_cases x s with ⟨-, he⟩ | ⟨-, he⟩ <;> simp only [exec, he] at h
    · cases h; exact ⟨rfl, rfl, rfl, rfl⟩
    · cases h
  case skpVx => exact keySkip_next_sameUnwritten h
  case sknpVx => exact keySkip_next_sameUnwritten h
  case ldBVx => exact storeAtIndex_next_sameUnwritten h
  case ldMemVx => exact storeAtIndex_next_sameUnwritten h
  all_goals cases h; exact ⟨rfl, rfl, rfl, rfl⟩

/-- What a crash of the handler leaves: at most DISP changed, and CRASH on the signal output (R127). -/
theorem exec_fault_left {i : Instr} {s : State} {f : Fault} (h : exec i s = .fault f) :
    ∃ d, f.left = { s with disp := d, signal := .crash } := by
  rcases exec_cases i s with ⟨t, ht, -⟩ | ⟨c, s', hr, -, -, hleft, hs', -⟩
  · rw [ht] at h; cases h
  · rw [hr, raise_eq_fault] at h
    exact ⟨s'.disp, by rw [← h, hleft, hs']; rfl⟩

/-- Settles O8: the clock counts the cycle before the handler runs, and neither a handler that completes nor one that crashes
writes CYC; the crash of an unrecognized word is raised on the ticked state. -/
theorem everyFetchedStepCountsOneCycle : Obligations.EveryFetchedStepCountsOneCycle := by
  intro s _ hpc
  refine ⟨fun t ht => ?_, fun f hf => ?_⟩
  · obtain ⟨i, -, hi⟩ := step_next_cases ht
    obtain ⟨hcyc, -⟩ := exec_next_sameUnwritten hi
    exact hcyc
  · obtain ⟨-, ⟨hout, -⟩ | ⟨-, -, rfl⟩ | ⟨i, -, hi⟩⟩ := step_fault_cases hf
    · omega
    · rfl
    · obtain ⟨d, hleft⟩ := exec_fault_left hi
      rw [hleft, State.clock_cyc]

end Sys2Proof.Machine

/-! SUPPORT. Control transfers whose ending writes only PC and the signal output (41_control_transfer.md, sections 2 and 4). -/

namespace Sys2Proof.Machine

/-- An embedded address is zero-extended: it keeps its value (30_encoding.md R94). -/
@[simp] theorem toNat_addrWord (nnn : Addr) : (addrWord nnn).toNat = nnn.toNat :=
  BitVec.toNat_setWidth_of_le (by decide)

/-- PC and the signal output lie outside every footprint, so writing both keeps any frame. -/
theorem frame_setPc_emit (fp : Footprint) (s : State) (w : Word) (g : Signal) : Frame fp s ((s.setPc w).emit g) where
  regs _ _ := rfl
  index _ := rfl
  stack _ := ⟨rfl, rfl⟩
  delay _ := rfl
  sound _ := rfl
  display _ := rfl
  wait _ := rfl
  random _ := ⟨rfl, rfl⟩
  bytes _ _ := rfl
  cycle := rfl
  keys := rfl
  keyIn := rfl
  config := rfl

/-- A completed skip adds 4 to PC when the condition its test decides holds and 2 when it does not. `p` is the condition as a
statement writes it, `c` the test as the handler writes it. -/
theorem skipIf_completes {c : Bool} {p : Prop} [Decidable p] (hc : c = true ↔ p) (s : State) :
    ∃ t, skipIf c s = .next t ∧ t.pc = s.pc + (if p then 4 else 2) ∧ t.signal = .none ∧ Frame {} s t := by
  have hpc : (s.advance (if c then 4 else 2)).pc = s.pc + (if p then 4 else 2) := by simp [hc]
  exact ⟨_, rfl, hpc, rfl, frame_setPc_emit {} s _ .none⟩

/-- Settles O28: the jump's handler is a write of PC, the embedded address zero-extended, and nothing else but the signal. -/
theorem jumpLoadsItsAddress : Obligations.JumpLoadsItsAddress := by
  intro nnn s
  exact ⟨_, rfl, toNat_addrWord nnn, rfl, frame_setPc_emit {} s (addrWord nnn) .none⟩

/-- Settles O33: both skips end in the shared skip, SE on the equality test and SNE on its negation. -/
theorem immediateSkipsCompareARegister : Obligations.ImmediateSkipsCompareARegister := by
  intro x kk s
  have hse : (s.reg x == kk) = true ↔ s.reg x = kk := beq_iff_eq
  have hsne : (s.reg x != kk) = true ↔ s.reg x ≠ kk := bne_iff_ne
  exact ⟨skipIf_completes hse s, skipIf_completes hsne s⟩

end Sys2Proof.Machine

/-! SUPPORT. Register writes that end in PC + 2 and NONE (42_alu.md, section 2). -/

namespace Sys2Proof.Machine

/-- Operations that keep to one footprint keep to it in sequence. The footprint is shared, not joined: two store ranges need not
join to one. -/
theorem Frame.trans {fp : Footprint} {s t u : State} (h : Frame fp s t) (k : Frame fp t u) : Frame fp s u where
  regs r hr := (k.regs r hr).trans (h.regs r hr)
  index hf := (k.index hf).trans (h.index hf)
  stack hf := ⟨(k.stack hf).1.trans (h.stack hf).1, (k.stack hf).2.trans (h.stack hf).2⟩
  delay hf := (k.delay hf).trans (h.delay hf)
  sound hf := (k.sound hf).trans (h.sound hf)
  display hf := (k.display hf).trans (h.display hf)
  wait hf := (k.wait hf).trans (h.wait hf)
  random hf := ⟨(k.random hf).1.trans (h.random hf).1, (k.random hf).2.trans (h.random hf).2⟩
  bytes a ha := (k.bytes a ha).trans (h.bytes a ha)
  cycle := k.cycle.trans h.cycle
  keys := k.keys.trans h.keys
  keyIn := k.keyIn.trans h.keyIn
  config := k.config.trans h.config

/-- A register write keeps every frame whose footprint lists the register. -/
theorem frame_setReg {fp : Footprint} {x : Reg} (hx : x ∈ fp.regs) (s : State) (u : Byte) : Frame fp s (s.setReg x u) where
  regs _ hr := s.reg_setReg_of_ne u (ne_of_mem_of_not_mem hx hr).symm
  index _ := rfl
  stack _ := ⟨rfl, rfl⟩
  delay _ := rfl
  sound _ := rfl
  display _ := rfl
  wait _ := rfl
  random _ := ⟨rfl, rfl⟩
  bytes _ _ := rfl
  cycle := rfl
  keys := rfl
  keyIn := rfl
  config := rfl

/-- The common end of the ALU instructions after one register write: V[x] holds the byte written, whichever register x is, and
nothing else changes but PC and the signal. -/
theorem aluDone_setReg_completes (x : Reg) (u : Byte) (s : State) :
    ∃ t, aluDone (s.setReg x u) = .next t ∧ t.reg x = u ∧ t.pc = s.pc + 2 ∧ t.signal = .none ∧
      Frame { regs := [x] } s t := by
  have hwrite : Frame { regs := [x] } s (s.setReg x u) := frame_setReg (List.mem_singleton_self x) s u
  exact ⟨_, rfl, s.reg_setReg_self x u, rfl, rfl, hwrite.trans (frame_setPc_emit _ _ (s.pc + 2) .none)⟩

/-- Settles O35: the handler writes kk to V[x]. -/
theorem loadImmediateSetsTheRegister : Obligations.LoadImmediateSetsTheRegister :=
  fun x kk s => aluDone_setReg_completes x kk s

/-- Settles O36: the handler writes the 8-bit sum, whose value is the sum modulo 256, and writes no other register. -/
theorem addImmediateWrapsWithoutAFlag : Obligations.AddImmediateWrapsWithoutAFlag := by
  intro x kk s
  obtain ⟨t, hexec, hreg, hrest⟩ := aluDone_setReg_completes x (s.reg x + kk) s
  have hsum : (t.reg x).toNat = ((s.reg x).toNat + kk.toNat) % 256 := by rw [hreg, BitVec.toNat_add]
  exact ⟨t, hexec, hsum, hrest⟩

/-- Settles O37: the handler writes V[y], read before the write, to V[x]. -/
theorem assignCopiesARegister : Obligations.AssignCopiesARegister :=
  fun x y s => aluDone_setReg_completes x (s.reg y) s

end Sys2Proof.Machine

/-! SUPPORT. Index writes that end in PC + 2 and NONE (43_index_memory.md, section 2). -/

namespace Sys2Proof.Machine

/-- A write of I keeps every frame whose footprint lists the index register. -/
theorem frame_setI {fp : Footprint} (hindex : fp.index = true) (s : State) (w : Word) : Frame fp s (s.setI w) where
  regs _ _ := rfl
  index hf := absurd hindex (by simp [hf])
  stack _ := ⟨rfl, rfl⟩
  delay _ := rfl
  sound _ := rfl
  display _ := rfl
  wait _ := rfl
  random _ := ⟨rfl, rfl⟩
  bytes _ _ := rfl
  cycle := rfl
  keys := rfl
  keyIn := rfl
  config := rfl

/-- Settles O46: the handler is a write of I, the embedded address zero-extended, and the common end that moves PC by 2 and
signals NONE. -/
theorem setIndexLoadsItsAddress : Obligations.SetIndexLoadsItsAddress := by
  intro nnn s
  have hwrite : Frame { index := true } s (s.setI (addrWord nnn)) := frame_setI rfl s (addrWord nnn)
  exact ⟨_, rfl, toNat_addrWord nnn, rfl, rfl, hwrite.trans (frame_setPc_emit _ _ (s.pc + 2) .none)⟩

end Sys2Proof.Machine

/-! SUPPORT. Display writes that end in PC + 2 and REDRAW (44_display.md, section 2). -/

namespace Sys2Proof.Machine

/-- A write of DISP keeps every frame whose footprint lists the display. -/
theorem frame_setDisp {fp : Footprint} (hdisplay : fp.display = true) (s : State) (d : Display) :
    Frame fp s (s.setDisp d) where
  regs _ _ := rfl
  index _ := rfl
  stack _ := ⟨rfl, rfl⟩
  delay _ := rfl
  sound _ := rfl
  display hf := absurd hdisplay (by simp [hf])
  wait _ := rfl
  random _ := ⟨rfl, rfl⟩
  bytes _ _ := rfl
  cycle := rfl
  keys := rfl
  keyIn := rfl
  config := rfl

/-- Settles O53: the handler is a write of DISP, every pixel blank whatever it was, and a common end that moves PC by 2 and
signals REDRAW. -/
theorem clearDisplayClearsEveryPixel : Obligations.ClearDisplayClearsEveryPixel := by
  intro s
  have hwrite : Frame { display := true } s (s.setDisp Display.blank) := frame_setDisp rfl s Display.blank
  exact ⟨_, rfl, Display.pixel_blank, rfl, rfl, hwrite.trans (frame_setPc_emit _ _ (s.pc + 2) .redraw)⟩

end Sys2Proof.Machine

/-! SUPPORT. Timer writes that end in PC + 2 and NONE (45_timers_keys.md, section 1). -/

namespace Sys2Proof.Machine

/-- A write of DT keeps every frame whose footprint lists the delay timer. -/
theorem frame_setDt {fp : Footprint} (hdelay : fp.delay = true) (s : State) (u : Byte) : Frame fp s (s.setDt u) where
  regs _ _ := rfl
  index _ := rfl
  stack _ := ⟨rfl, rfl⟩
  delay hf := absurd hdelay (by simp [hf])
  sound _ := rfl
  display _ := rfl
  wait _ := rfl
  random _ := ⟨rfl, rfl⟩
  bytes _ _ := rfl
  cycle := rfl
  keys := rfl
  keyIn := rfl
  config := rfl

/-- A write of ST keeps every frame whose footprint lists the sound timer. -/
theorem frame_setSt {fp : Footprint} (hsound : fp.sound = true) (s : State) (u : Byte) : Frame fp s (s.setSt u) where
  regs _ _ := rfl
  index _ := rfl
  stack _ := ⟨rfl, rfl⟩
  delay _ := rfl
  sound hf := absurd hsound (by simp [hf])
  display _ := rfl
  wait _ := rfl
  random _ := ⟨rfl, rfl⟩
  bytes _ _ := rfl
  cycle := rfl
  keys := rfl
  keyIn := rfl
  config := rfl

/-- The sound flag follows ST at once (R241): it decides whether ST is not 0. -/
theorem State.soundFlag_eq_decide (s : State) : s.soundFlag = decide (s.st ≠ 0) :=
  Bool.eq_iff_iff.mpr (bne_iff_ne.trans decide_eq_true_iff.symm)

/-- Settles O55: each handler is one write (of V[x], DT or ST) and the common end that moves PC by 2 and signals NONE; the
first has the shape of a register write of the ALU, and the sound flag is read from the ST just written. -/
theorem timerInstructionsMoveAByte : Obligations.TimerInstructionsMoveAByte := by
  intro x s
  have hdelay : Frame { delay := true } s (s.setDt (s.reg x)) := frame_setDt rfl s (s.reg x)
  have hsound : Frame { sound := true } s (s.setSt (s.reg x)) := frame_setSt rfl s (s.reg x)
  refine ⟨?readDelay, ?writeDelay, ?writeSound⟩
  case readDelay => exact aluDone_setReg_completes x s.dt s
  case writeDelay => exact ⟨_, rfl, rfl, rfl, rfl, hdelay.trans (frame_setPc_emit _ _ (s.pc + 2) .none)⟩
  case writeSound =>
    exact ⟨_, rfl, rfl, State.soundFlag_eq_decide _, rfl, rfl, hsound.trans (frame_setPc_emit _ _ (s.pc + 2) .none)⟩

end Sys2Proof.Machine

/-! SUPPORT. What the decoder answers, read back: which word it was, which row of the opcode map it matched, and which words it
refuses (30_encoding.md, sections 4 to 6). -/

namespace Sys2Proof

/-! ### Decode after encode -/

/-- The word of a well-formed instruction decodes to it. -/
theorem decodeWord_encode {i : Instr} (h : i.wellFormed = true) : decodeWord (encode i) = some i := by
  cases i with
  | cls => exact Laws.RoundTrip.cls h
  | ret => exact Laws.RoundTrip.ret h
  | jpNnn nnn => exact Laws.RoundTrip.jpNnn nnn h
  | callNnn nnn => exact Laws.RoundTrip.callNnn nnn h
  | seVxKk x kk => exact Laws.RoundTrip.seVxKk x kk h
  | sneVxKk x kk => exact Laws.RoundTrip.sneVxKk x kk h
  | seVxVy x y => exact Laws.RoundTrip.seVxVy x y h
  | ldVxKk x kk => exact Laws.RoundTrip.ldVxKk x kk h
  | addVxKk x kk => exact Laws.RoundTrip.addVxKk x kk h
  | ldVxVy x y => exact Laws.RoundTrip.ldVxVy x y h
  | orVxVy x y => exact Laws.RoundTrip.orVxVy x y h
  | andVxVy x y => exact Laws.RoundTrip.andVxVy x y h
  | xorVxVy x y => exact Laws.RoundTrip.xorVxVy x y h
  | addVxVy x y => exact Laws.RoundTrip.addVxVy x y h
  | subVxVy x y => exact Laws.RoundTrip.subVxVy x y h
  | shrVx x => exact Laws.RoundTrip.shrVx x h
  | subnVxVy x y => exact Laws.RoundTrip.subnVxVy x y h
  | shlVx x => exact Laws.RoundTrip.shlVx x h
  | sneVxVy x y => exact Laws.RoundTrip.sneVxVy x y h
  | ldINnn nnn => exact Laws.RoundTrip.ldINnn nnn h
  | jpV0Nnn nnn => exact Laws.RoundTrip.jpV0Nnn nnn h
  | rndVxKk x kk => exact Laws.RoundTrip.rndVxKk x kk h
  | drwVxVyN x y n => exact Laws.RoundTrip.drwVxVyN x y n h
  | skpVx x => exact Laws.RoundTrip.skpVx x h
  | sknpVx x => exact Laws.RoundTrip.sknpVx x h
  | ldVxDt x => exact Laws.RoundTrip.ldVxDt x h
  | ldVxK x => exact Laws.RoundTrip.ldVxK x h
  | ldDtVx x => exact Laws.RoundTrip.ldDtVx x h
  | ldStVx x => exact Laws.RoundTrip.ldStVx x h
  | addIVx x => exact Laws.RoundTrip.addIVx x h
  | ldFVx x => exact Laws.RoundTrip.ldFVx x h
  | ldBVx x => exact Laws.RoundTrip.ldBVx x h
  | ldMemVx x => exact Laws.RoundTrip.ldMemVx x h
  | ldVxMem x => exact Laws.RoundTrip.ldVxMem x h

/-- Settles O2: the word of each instruction decodes to it, and the decoder takes exactly that word's two bytes. -/
theorem encodedInstructionDecodesBack : Obligations.EncodedInstructionDecodesBack := by
  intro i rest hwf
  rw [encodeBytes, decode_bytesOfWord, decodeWord_encode hwf]

/-- Settles O1, word by word. -/
theorem sampleWordsDecodeAsThePatternsSay : Obligations.SampleWordsDecodeAsThePatternsSay := by
  unfold Obligations.SampleWordsDecodeAsThePatternsSay
  decide

/-! ### Encode after decode -/

/-- A word whose top nibble is known is that nibble and its address. -/
theorem formatA_of_top {w : Word} {c : BitVec 4} (hc : (fieldTop w).toNat = c.toNat) : formatA c (fieldNnn w) = w := by
  rw [← BitVec.eq_of_toNat_eq hc, formatA_fields]

/-- A word whose top nibble is known is that nibble, its x field and its low byte. -/
theorem formatXK_of_top {w : Word} {c : BitVec 4} (hc : (fieldTop w).toNat = c.toNat) :
    formatXK c (fieldX w) (fieldKk w) = w := by
  rw [← BitVec.eq_of_toNat_eq hc, formatXK_fields]

/-- A word whose top nibble and low byte are known is those and its x field. -/
theorem formatXK_of_top_kk {w : Word} {c : BitVec 4} {kk : Byte} (hc : (fieldTop w).toNat = c.toNat)
    (hk : (fieldKk w).toNat = kk.toNat) : formatXK c (fieldX w) kk = w := by
  rw [← BitVec.eq_of_toNat_eq hk, formatXK_of_top hc]

/-- A word whose top and low nibbles are known is those and its x and y fields. -/
theorem formatXYN_of_top_n {w : Word} {c n : BitVec 4} (hc : (fieldTop w).toNat = c.toNat)
    (hn : (fieldN w).toNat = n.toNat) : formatXYN c (fieldX w) (fieldY w) n = w := by
  rw [← BitVec.eq_of_toNat_eq hc, ← BitVec.eq_of_toNat_eq hn, formatXYN_fields]

/-- The low nibble of a word written as 0, where families 5 and 9 ignore it. -/
theorem formatXYN_of_top_zero {w : Word} {c : BitVec 4} (hc : (fieldTop w).toNat = c.toNat) :
    formatXYN c (fieldX w) (fieldY w) 0x0#4 = w &&& 0xFFF0#16 := by
  have hword := w.isLt
  apply BitVec.eq_of_toNat_eq
  rw [toNat_and_FFF0, toNat_formatXYN, ← hc, toNat_fieldTop, val_fieldX, val_fieldY, BitVec.toNat_zero]
  omega

/-- The y field of a word written as 0, where the two shifts ignore it. -/
theorem formatXYN_of_top_n_zero {w : Word} {c n : BitVec 4} (hc : (fieldTop w).toNat = c.toNat)
    (hn : (fieldN w).toNat = n.toNat) : formatXYN c (fieldX w) 0 n = w &&& 0xFF0F#16 := by
  have hword := w.isLt
  apply BitVec.eq_of_toNat_eq
  rw [toNat_and_FF0F, toNat_formatXYN, ← hc, ← hn, toNat_fieldTop, val_fieldX, toNat_fieldN, Fin.val_zero]
  omega

/-- The word is a well-formed instruction's encoding but for the bits the instruction ignores. -/
def EncodesTo (w : Word) (i : Instr) : Prop := i.wellFormed = true ∧ encode i = w &&& ~~~(ignoredBits i)

/-- An instruction that ignores the bits outside a mask. -/
theorem EncodesTo.of_mask {w m : Word} {i : Instr} (hwf : i.wellFormed = true) (hign : ignoredBits i = ~~~m)
    (henc : encode i = w &&& m) : EncodesTo w i := by
  refine ⟨hwf, ?_⟩
  rw [henc, hign, BitVec.not_not]

/-- An instruction that ignores no bit. -/
theorem EncodesTo.of_encode_eq {w : Word} {i : Instr} (hwf : i.wellFormed = true) (hign : ignoredBits i = 0#16)
    (henc : encode i = w) : EncodesTo w i := by
  have hall : w &&& BitVec.allOnes 16 = w := BitVec.and_allOnes
  exact .of_mask hwf hign (henc.trans hall.symm)

theorem encodesTo_of_decodeFamily0 {w : Word} {i : Instr} (h : decodeFamily0 w = some i) : EncodesTo w i := by
  unfold decodeFamily0 at h
  split at h
  · next hw => cases h; exact .of_encode_eq rfl rfl hw.symm
  · split at h
    · next hw => cases h; exact .of_encode_eq rfl rfl hw.symm
    · cases h

theorem encodesTo_of_decodeFamily8 {w : Word} {i : Instr} (htop : (fieldTop w).toNat = 0x8) (h : decodeFamily8 w = some i) :
    EncodesTo w i := by
  unfold decodeFamily8 at h
  split at h <;> cases h
  case h_7 hn | h_9 hn => exact .of_mask rfl rfl (formatXYN_of_top_n_zero htop hn)
  all_goals next hn => exact .of_encode_eq rfl rfl (formatXYN_of_top_n htop hn)

theorem encodesTo_of_decodeFamilyE {w : Word} {i : Instr} (htop : (fieldTop w).toNat = 0xE) (h : decodeFamilyE w = some i) :
    EncodesTo w i := by
  unfold decodeFamilyE at h
  split at h <;> cases h
  all_goals next hkk => exact .of_encode_eq rfl rfl (formatXK_of_top_kk htop hkk)

theorem encodesTo_of_decodeFamilyF {w : Word} {i : Instr} (htop : (fieldTop w).toNat = 0xF) (h : decodeFamilyF w = some i) :
    EncodesTo w i := by
  unfold decodeFamilyF at h
  split at h <;> cases h
  all_goals next hkk => exact .of_encode_eq rfl rfl (formatXK_of_top_kk htop hkk)

/-- The height a draw is decoded with is a nibble, so the draw is well formed and its encoding has it back. -/
theorem encodesTo_draw {w : Word} (htop : (fieldTop w).toNat = 0xD) :
    EncodesTo w (.drwVxVyN (fieldX w) (fieldY w) (fieldN w).toNat) := by
  have hlt := (fieldN w).isLt
  refine .of_encode_eq ?_ rfl ?_
  · simp only [Instr.wellFormed, spriteHeightFits, decide_eq_true_eq]; omega
  · exact formatXYN_of_top_n htop (by rw [BitVec.ofNat_toNat, BitVec.setWidth_eq])

/-- Settles O3, family by family. -/
theorem decodedWordIsItsEncodingButForIgnoredBits : Obligations.DecodedWordIsItsEncodingButForIgnoredBits := by
  intro w i h
  change EncodesTo w i
  unfold decodeWord at h
  split at h
  case h_1 => exact encodesTo_of_decodeFamily0 h
  case h_9 htop => exact encodesTo_of_decodeFamily8 htop h
  case h_15 htop => exact encodesTo_of_decodeFamilyE htop h
  case h_16 htop => exact encodesTo_of_decodeFamilyF htop h
  case h_17 => cases h
  case h_14 htop => cases h; exact encodesTo_draw htop
  case h_2 htop | h_3 htop | h_11 htop | h_12 htop => cases h; exact .of_encode_eq rfl rfl (formatA_of_top htop)
  case h_6 htop | h_10 htop => cases h; exact .of_mask rfl rfl (formatXYN_of_top_zero htop)
  all_goals next htop => cases h; exact .of_encode_eq rfl rfl (formatXK_of_top htop)

/-! ### The words that are no instruction -/

theorem decodeFamily0_eq_none (w : Word) : decodeFamily0 w = none ↔ w ≠ 0x00E0#16 ∧ w ≠ 0x00EE#16 := by
  unfold decodeFamily0
  split
  · next hw => simp [hw]
  · next hcls =>
    split
    · next hw => simp [hw]
    · next hret => simp [hcls, hret]

theorem decodeFamily8_eq_none (w : Word) :
    decodeFamily8 w = none ↔ (fieldN w).toNat ∈ [0x8, 0x9, 0xA, 0xB, 0xC, 0xD, 0xF] := by
  have hlt := (fieldN w).isLt
  unfold decodeFamily8
  split
  case h_10 =>
    refine iff_of_true rfl ?_
    simp only [imp_false, List.mem_cons, List.not_mem_nil, or_false] at *
    omega
  all_goals next hn => simp [hn]

theorem decodeFamilyE_eq_none (w : Word) : decodeFamilyE w = none ↔ (fieldKk w).toNat ∉ [0x9E, 0xA1] := by
  unfold decodeFamilyE
  split
  case h_3 h9E hA1 => simpa using And.intro h9E hA1
  all_goals next hkk => simp [hkk]

theorem decodeFamilyF_eq_none (w : Word) :
    decodeFamilyF w = none ↔ (fieldKk w).toNat ∉ [0x07, 0x0A, 0x15, 0x18, 0x1E, 0x29, 0x33, 0x55, 0x65] := by
  unfold decodeFamilyF
  split
  case h_10 h07 h0A h15 h18 h1E h29 h33 h55 h65 => simpa using ⟨h07, h0A, h15, h18, h1E, h29, h33, h55, h65⟩
  all_goals next hkk => simp [hkk]

/-- Settles O5: only the families 0, 8, E and F refuse a word, and each of them as its own lemma says. -/
theorem unrecognizedWordsAreTheListedOnes : Obligations.UnrecognizedWordsAreTheListedOnes := by
  intro w
  have hlt := (fieldTop w).isLt
  simp only [← BitVec.toNat_inj, ← decodeFamily8_eq_none, ← decodeFamilyE_eq_none, ← decodeFamilyF_eq_none]
  unfold decodeWord
  split
  case h_1 htop => simp [htop, decodeFamily0_eq_none, ← BitVec.toNat_inj]
  case h_17 => exfalso; simp only [imp_false] at *; omega
  all_goals next htop => simp [htop]

/-! ### The opcode map -/

theorem formatA_and_F000 (c : BitVec 4) (nnn : Addr) : (formatA c nnn &&& 0xF000#16).toNat = c.toNat * 4096 := by
  rw [toNat_and_F000, fieldTop_formatA]

theorem formatXK_and_F000 (c : BitVec 4) (x : Reg) (kk : Byte) :
    (formatXK c x kk &&& 0xF000#16).toNat = c.toNat * 4096 := by
  rw [toNat_and_F000, fieldTop_formatXK]

theorem formatXK_and_F0FF (c : BitVec 4) (x : Reg) (kk : Byte) :
    (formatXK c x kk &&& 0xF0FF#16).toNat = c.toNat * 4096 + kk.toNat := by
  rw [toNat_and_F0FF, fieldTop_formatXK, fieldKk_formatXK]

theorem formatXYN_and_F000 (c : BitVec 4) (x y : Reg) (n : BitVec 4) :
    (formatXYN c x y n &&& 0xF000#16).toNat = c.toNat * 4096 := by
  rw [toNat_and_F000, fieldTop_formatXYN]

theorem formatXYN_and_F00F (c : BitVec 4) (x y : Reg) (n : BitVec 4) :
    (formatXYN c x y n &&& 0xF00F#16).toNat = c.toNat * 4096 + n.toNat := by
  rw [toNat_and_F00F, fieldTop_formatXYN, fieldN_formatXYN]

/-- The encoding of an instruction matches the instruction's row of the map, whose mask examines no bit the instruction
ignores. -/
theorem encode_matches_row (i : Instr) : ∃ row ∈ opcodeMap, row.number = i.row ∧ encode i &&& row.mask = row.pattern ∧
    ~~~(ignoredBits i) &&& row.mask = row.mask := by
  suffices h : ∃ row, opcodeMap[i.row - 1]? = some row ∧ row.number = i.row ∧
      (encode i &&& row.mask).toNat = row.pattern.toNat ∧ ~~~(ignoredBits i) &&& row.mask = row.mask by
    obtain ⟨row, hget, hnumber, hmatch, hmask⟩ := h
    exact ⟨row, List.mem_of_getElem? hget, hnumber, BitVec.eq_of_toNat_eq hmatch, hmask⟩
  cases i
  case cls | ret => exact ⟨_, rfl, rfl, rfl, rfl⟩
  case jpNnn | callNnn | ldINnn | jpV0Nnn =>
    exact ⟨_, rfl, rfl, (formatA_and_F000 ..).trans (by decide), by simp only [ignoredBits]; decide⟩
  case seVxVy | sneVxVy | drwVxVyN =>
    exact ⟨_, rfl, rfl, (formatXYN_and_F000 ..).trans (by decide), by simp only [ignoredBits]; decide⟩
  case seVxKk | sneVxKk | ldVxKk | addVxKk | rndVxKk =>
    exact ⟨_, rfl, rfl, (formatXK_and_F000 ..).trans (by decide), by simp only [ignoredBits]; decide⟩
  case ldVxVy | orVxVy | andVxVy | xorVxVy | addVxVy | subVxVy | shrVx | subnVxVy | shlVx =>
    exact ⟨_, rfl, rfl, (formatXYN_and_F00F ..).trans (by decide), by simp only [ignoredBits]; decide⟩
  all_goals exact ⟨_, rfl, rfl, (formatXK_and_F0FF ..).trans (by decide), by simp only [ignoredBits]; decide⟩

/-- A decoded word matches its instruction's row: it differs from the encoding only in ignored bits, which the mask drops. -/
theorem matches_row_of_decodeWord {w : Word} {i : Instr} (h : decodeWord w = some i) :
    ∃ row ∈ opcodeMap, row.number = i.row ∧ w &&& row.mask = row.pattern := by
  obtain ⟨-, henc⟩ := decodedWordIsItsEncodingButForIgnoredBits w i h
  obtain ⟨row, hrow, hnumber, hmatch, hmask⟩ := encode_matches_row i
  refine ⟨row, hrow, hnumber, ?_⟩
  calc w &&& row.mask = w &&& (~~~(ignoredBits i) &&& row.mask) := by rw [hmask]
    _ = encode i &&& row.mask := by rw [henc, BitVec.and_assoc]
    _ = row.pattern := hmatch

theorem opcodeMap_number_injective : ∀ row ∈ opcodeMap, ∀ row' ∈ opcodeMap, row.number = row'.number → row = row' := by
  decide +kernel

/-- No two rows agree in the bits that both of their masks examine. -/
theorem opcodeMap_disjoint : ∀ row ∈ opcodeMap, ∀ row' ∈ opcodeMap,
    row.pattern &&& row'.mask = row'.pattern &&& row.mask → row = row' := by
  decide +kernel

theorem eq_of_matches_both {row row' : OpcodeRow} (hrow : row ∈ opcodeMap) (hrow' : row' ∈ opcodeMap) {w : Word}
    (h : w &&& row.mask = row.pattern) (h' : w &&& row'.mask = row'.pattern) : row = row' :=
  opcodeMap_disjoint row hrow row' hrow' (by rw [← h, ← h', BitVec.and_assoc, BitVec.and_assoc, BitVec.and_comm row.mask])

/-- The rows by mask: what each kind of row fixes lies outside the words that are no instruction. -/
theorem opcodeMap_rows : ∀ row ∈ opcodeMap,
    (row.mask = BitVec.allOnes 16 ∧ row.pattern ∈ [0x00E0#16, 0x00EE#16]) ∨
    (row.mask = 0xF000#16 ∧ row.pattern.toNat / 4096 ∉ [0x0, 0x8, 0xE, 0xF]) ∨
    (row.mask = 0xF00F#16 ∧ row.pattern.toNat / 4096 = 0x8 ∧ row.pattern.toNat % 16 ∉ [0x8, 0x9, 0xA, 0xB, 0xC, 0xD, 0xF]) ∨
    (row.mask = 0xF0FF#16 ∧ row.pattern.toNat / 4096 = 0xE ∧ row.pattern.toNat % 256 ∈ [0x9E, 0xA1]) ∨
    (row.mask = 0xF0FF#16 ∧ row.pattern.toNat / 4096 = 0xF ∧
      row.pattern.toNat % 256 ∈ [0x07, 0x0A, 0x15, 0x18, 0x1E, 0x29, 0x33, 0x55, 0x65]) := by
  decide +kernel

/-- A word that matches a row is an instruction: the fields its mask examines are none that the decoder refuses. -/
theorem decodeWord_ne_none_of_matches {row : OpcodeRow} (hrow : row ∈ opcodeMap) {w : Word}
    (h : w &&& row.mask = row.pattern) : decodeWord w ≠ none := by
  intro hnone
  have hrefused := (unrecognizedWordsAreTheListedOnes w).mp hnone
  simp only [← BitVec.toNat_inj (x := fieldTop w), BitVec.toNat_ofNat, Nat.reducePow, Nat.reduceMod] at hrefused
  obtain ⟨number, pattern, mask⟩ := row
  have hmap := opcodeMap_rows _ hrow
  dsimp only at h hmap
  have hn := (fieldN w).isLt
  have hkk := (fieldKk w).isLt
  rcases hmap with ⟨rfl, hpattern⟩ | ⟨rfl, htop⟩ | ⟨rfl, htop, hlow⟩ | ⟨rfl, htop, hlow⟩ | ⟨rfl, htop, hlow⟩
  · have hw : pattern = w := h.symm.trans BitVec.and_allOnes
    have hrecognized : ∀ u ∈ [0x00E0#16, 0x00EE#16], decodeWord u ≠ none := by simp [decodeWord, fieldTop, decodeFamily0]
    exact hrecognized pattern hpattern (hw ▸ hnone)
  · have hnat := toNat_and_F000 w
    rw [h] at hnat
    simp only [List.mem_cons, List.not_mem_nil, or_false] at htop
    omega
  · have hnat := toNat_and_F00F w
    rw [h] at hnat
    simp only [List.mem_cons, List.not_mem_nil, or_false] at hrefused hlow
    omega
  all_goals
    have hnat := toNat_and_F0FF w
    rw [h] at hnat
    simp only [List.mem_cons, List.not_mem_nil, or_false] at hrefused hlow
    omega

/-- Settles O4: a decoded word matches its instruction's row, a word that matches a row is an instruction, and no word matches
two rows. -/
theorem decoderAgreesWithTheOpcodeMap : Obligations.DecoderAgreesWithTheOpcodeMap := by
  refine ⟨fun row hrow w => ⟨?_, fun h => ?_⟩, fun row hrow row' hrow' w h h' => eq_of_matches_both hrow hrow' h h'⟩
  · rintro ⟨i, hdecode, hnumber⟩
    obtain ⟨row', hrow', hnumber', h'⟩ := matches_row_of_decodeWord hdecode
    rwa [opcodeMap_number_injective row hrow row' hrow' (by rw [← hnumber, hnumber'])]
  · obtain ⟨i, hdecode⟩ := Option.ne_none_iff_exists'.mp (decodeWord_ne_none_of_matches hrow h)
    obtain ⟨row', hrow', hnumber', h'⟩ := matches_row_of_decodeWord hdecode
    exact ⟨i, hdecode, by rw [eq_of_matches_both hrow hrow' h h', hnumber']⟩

end Sys2Proof

/-! SUPPORT. Everything an instruction that completes can do, said once: its signal, its frame, how it moves PC and the stack,
and that it keeps memory canonical and I below 4096. -/

namespace Sys2Proof.Machine

/-! ### Frames of the remaining writes -/

/-- A write of STACK and SP keeps every frame whose footprint lists the stack. -/
theorem frame_stack {fp : Footprint} (hstack : fp.stack = true) (s : State) (k : Vector Word 16) (p : Fin 17) :
    Frame fp s { s with stack := k, sp := p } where
  regs _ _ := rfl
  index _ := rfl
  stack hf := absurd hstack (by simp [hf])
  delay _ := rfl
  sound _ := rfl
  display _ := rfl
  wait _ := rfl
  random _ := ⟨rfl, rfl⟩
  bytes _ _ := rfl
  cycle := rfl
  keys := rfl
  keyIn := rfl
  config := rfl

/-- A write of WAIT keeps every frame whose footprint lists it. -/
theorem frame_setWait {fp : Footprint} (hwait : fp.wait = true) (s : State) (w : Option Reg) : Frame fp s (s.setWait w) where
  regs _ _ := rfl
  index _ := rfl
  stack _ := ⟨rfl, rfl⟩
  delay _ := rfl
  sound _ := rfl
  display _ := rfl
  wait hf := absurd hwait (by simp [hf])
  random _ := ⟨rfl, rfl⟩
  bytes _ _ := rfl
  cycle := rfl
  keys := rfl
  keyIn := rfl
  config := rfl

/-- Consuming a random byte keeps every frame whose footprint lists the random input. -/
theorem frame_drawn {fp : Footprint} (hrandom : fp.random = true) (s : State) : Frame fp s s.drawn where
  regs _ _ := rfl
  index _ := rfl
  stack _ := ⟨rfl, rfl⟩
  delay _ := rfl
  sound _ := rfl
  display _ := rfl
  wait _ := rfl
  random hf := absurd hrandom (by simp [hf])
  bytes _ _ := rfl
  cycle := rfl
  keys := rfl
  keyIn := rfl
  config := rfl

/-- A load of registers from `V[0]` on keeps every frame whose footprint lists each register below the number of bytes. -/
theorem frame_setRegsFrom {fp : Footprint} {bs : List Byte} (hregs : ∀ r : Reg, r.val < bs.length → r ∈ fp.regs) (s : State) :
    Frame fp s (s.setRegsFrom 0 bs) where
  regs r hr := by rw [State.reg_setRegsFrom, dif_neg fun h => hr (hregs r (by omega))]
  index _ := rfl
  stack _ := ⟨rfl, rfl⟩
  delay _ := rfl
  sound _ := rfl
  display _ := rfl
  wait _ := rfl
  random _ := ⟨rfl, rfl⟩
  bytes _ _ := rfl
  cycle := rfl
  keys := rfl
  keyIn := rfl
  config := rfl

/-- A store keeps every frame whose footprint has its range. -/
theorem frame_putBytes {fp : Footprint} {a : Nat} {bs : List Byte} (hfrom : fp.storeFrom = a) (hlen : fp.storeLen = bs.length)
    (s : State) : Frame fp s (s.putBytes a bs) where
  regs _ _ := rfl
  index _ := rfl
  stack _ := ⟨rfl, rfl⟩
  delay _ := rfl
  sound _ := rfl
  display _ := rfl
  wait _ := rfl
  random _ := ⟨rfl, rfl⟩
  bytes _ hb := s.byte_putBytes_outside _ _ _ (by rwa [hfrom, hlen] at hb)
  cycle := rfl
  keys := rfl
  keyIn := rfl
  config := rfl

/-! ### The writes of an instruction before its end -/

/-- What the writes of an instruction that is no transfer of control keep: everything outside a footprint, PC and the stack, the
canonical form of memory and the bound on I. -/
structure Writes (fp : Footprint) (s u : State) : Prop where
  frame : Frame fp s u
  pc : u.pc = s.pc
  stack : u.stack = s.stack
  sp : u.sp = s.sp
  memory : Memory.wf s.config.font s.mem = true → Memory.wf s.config.font u.mem = true
  index : s.i.toNat < 4096 → u.i.toNat < 4096

theorem Writes.trans {fp : Footprint} {s t u : State} (h : Writes fp s t) (k : Writes fp t u) : Writes fp s u where
  frame := h.frame.trans k.frame
  pc := k.pc.trans h.pc
  stack := k.stack.trans h.stack
  sp := k.sp.trans h.sp
  memory hm := by
    have hk := k.memory
    rw [h.frame.config] at hk
    exact hk (h.memory hm)
  index hi := k.index (h.index hi)

theorem Writes.nothing (fp : Footprint) (s : State) : Writes fp s s :=
  ⟨frame_setPc_emit fp s s.pc s.signal, rfl, rfl, rfl, id, id⟩

theorem Writes.setReg {fp : Footprint} {x : Reg} (hx : x ∈ fp.regs) (s : State) (u : Byte) : Writes fp s (s.setReg x u) :=
  ⟨frame_setReg hx s u, rfl, rfl, rfl, id, id⟩

theorem Writes.resultThenFlag {fp : Footprint} {x : Reg} (hx : x ∈ fp.regs) (hvf : vf ∈ fp.regs) (s : State) (u : Byte)
    (b : Bool) : Writes fp s (s.resultThenFlag x u b) :=
  (Writes.setReg hx s u).trans (Writes.setReg hvf _ _)

theorem Writes.flagThenShiftRight {fp : Footprint} {x : Reg} (hx : x ∈ fp.regs) (hvf : vf ∈ fp.regs) (s : State) :
    Writes fp s (s.flagThenShiftRight x) :=
  (Writes.setReg hvf s _).trans (Writes.setReg hx _ _)

theorem Writes.flagThenShiftLeft {fp : Footprint} {x : Reg} (hx : x ∈ fp.regs) (hvf : vf ∈ fp.regs) (s : State) :
    Writes fp s (s.flagThenShiftLeft x) :=
  (Writes.setReg hvf s _).trans (Writes.setReg hx _ _)

theorem Writes.setI {fp : Footprint} (hindex : fp.index = true) (s : State) {w : Word} (hw : w.toNat < 4096) :
    Writes fp s (s.setI w) :=
  ⟨frame_setI hindex s w, rfl, rfl, rfl, id, fun _ => hw⟩

theorem Writes.putBytes {fp : Footprint} {a : Nat} {bs : List Byte} (hfrom : fp.storeFrom = a)
    (hlen : fp.storeLen = bs.length) (s : State) (hin : a + bs.length ≤ 4096) : Writes fp s (s.putBytes a bs) :=
  ⟨frame_putBytes hfrom hlen s, rfl, rfl, rfl, fun hm => Memory.wf_writeBytes _ hm hin, id⟩

theorem Writes.setRegsFrom {fp : Footprint} {bs : List Byte} (hregs : ∀ r : Reg, r.val < bs.length → r ∈ fp.regs)
    (s : State) : Writes fp s (s.setRegsFrom 0 bs) :=
  ⟨frame_setRegsFrom hregs s, rfl, rfl, rfl, id, id⟩

theorem Writes.drawn {fp : Footprint} (hrandom : fp.random = true) (s : State) : Writes fp s s.drawn :=
  ⟨frame_drawn hrandom s, rfl, rfl, rfl, id, id⟩

theorem Writes.setDisp {fp : Footprint} (hdisplay : fp.display = true) (s : State) (d : Display) :
    Writes fp s (s.setDisp d) :=
  ⟨frame_setDisp hdisplay s d, rfl, rfl, rfl, id, id⟩

theorem Writes.setWait {fp : Footprint} (hwait : fp.wait = true) (s : State) (w : Option Reg) : Writes fp s (s.setWait w) :=
  ⟨frame_setWait hwait s w, rfl, rfl, rfl, id, id⟩

theorem Writes.setDt {fp : Footprint} (hdelay : fp.delay = true) (s : State) (u : Byte) : Writes fp s (s.setDt u) :=
  ⟨frame_setDt hdelay s u, rfl, rfl, rfl, id, id⟩

theorem Writes.setSt {fp : Footprint} (hsound : fp.sound = true) (s : State) (u : Byte) : Writes fp s (s.setSt u) :=
  ⟨frame_setSt hsound s u, rfl, rfl, rfl, id, id⟩

/-! ### Completion -/

/-- How an instruction that completes moved PC and the stack: past itself, to the target it loads, into a call or out of one. -/
inductive Transfer (i : Instr) (s t : State) : Prop where
  | past (k : Word) (hk : k = 2 ∨ k = 4) (pc : t.pc = s.pc + k) (stack : t.stack = s.stack) (sp : t.sp = s.sp)
  | jump (target : loadedTarget i s = some t.pc.toNat) (stack : t.stack = s.stack) (sp : t.sp = s.sp)
  | call (room : s.sp.val < 16) (target : loadedTarget i s = some t.pc.toNat)
      (stack : t.stack = s.stack.set s.sp.val s.pc room) (sp : t.sp.val = s.sp.val + 1)
  | ret (j : Fin 16) (depth : s.sp.val = j.val + 1) (pc : t.pc = s.stack[j] + 2) (stack : t.stack = s.stack)
      (sp : t.sp.val = j.val)

/-- What is true of every instruction that completes. -/
structure Completion (i : Instr) (s t : State) : Prop where
  signal : t.signal = completionSignal i
  frame : Frame (footprint i s) s t
  transfer : Transfer i s t
  memory : Memory.wf s.config.font s.mem = true → Memory.wf s.config.font t.mem = true
  index : s.i.toNat < 4096 → t.i.toNat < 4096

/-- An instruction that is no transfer of control completes by going past itself. -/
theorem Writes.completion {i : Instr} {s u : State} (h : Writes (footprint i s) s u) (k : Word) (hk : k = 2 ∨ k = 4) :
    Completion i s ((u.advance k).emit (completionSignal i)) where
  signal := rfl
  frame := h.frame.trans (frame_setPc_emit _ u (u.pc + k) _)
  transfer := .past k hk (by rw [State.emit_pc, State.advance_pc, h.pc]) h.stack h.sp
  memory := h.memory
  index := h.index

/-- A jump completes by loading its target and writing nothing else. -/
theorem completion_jump {i : Instr} {s : State} {w : Word} (target : loadedTarget i s = some w.toNat) :
    Completion i s ((s.setPc w).emit (completionSignal i)) :=
  ⟨rfl, frame_setPc_emit _ s w _, .jump target rfl rfl, id, id⟩

/-! ### What the operands are bounded by -/

theorem addrWord_lt (nnn : Addr) : (addrWord nnn).toNat < 4096 := by
  rw [toNat_addrWord]
  exact nnn.isLt

theorem toNat_indexPlus (i : Word) (u : Byte) : (indexPlus i u).toNat = (i.toNat + u.toNat) % 4096 := by
  rw [indexPlus, BitVec.toNat_ofNat]
  omega

theorem toNat_glyphAddress {u : Byte} (h : u.toNat < 16) : (glyphAddress u).toNat = 5 * u.toNat := by
  have hfive : (5 : Word).toNat = 5 := rfl
  rw [glyphAddress, byteWord, BitVec.toNat_mul, BitVec.toNat_setWidth, hfive]
  omega

theorem toNat_offsetTarget (nnn : Addr) (u : Byte) : (offsetTarget nnn u).toNat = nnn.toNat + u.toNat := by
  have hn := nnn.isLt
  have hu := u.isLt
  rw [offsetTarget, byteWord, BitVec.toNat_add, toNat_addrWord, BitVec.toNat_setWidth]
  omega

/-! ### Each instruction completes so -/

theorem completion_of_skipIf {i : Instr} {s t : State} {c : Bool} (hsignal : completionSignal i = .none)
    (h : skipIf c s = .next t) : Completion i s t := by
  cases h
  rw [← hsignal]
  exact (Writes.nothing _ s).completion _ (by cases c <;> simp)

theorem completion_of_keySkip {i : Instr} {s t : State} {want : Bool} {x : Reg} (hsignal : completionSignal i = .none)
    (h : keySkip want x s = .next t) : Completion i s t := by
  rcases keyIndex?_cases (s.reg x) with ⟨k, -, hk⟩ | ⟨-, hk⟩ <;> simp only [keySkip, hk] at h
  · exact completion_of_skipIf hsignal h
  · cases h

theorem completion_of_storeAtIndex {i : Instr} {s t : State} {bs : List Byte} (hsignal : completionSignal i = .none)
    (hfrom : (footprint i s).storeFrom = s.effAddr 0) (hlen : (footprint i s).storeLen = bs.length)
    (h : storeAtIndex bs s = .next t) : Completion i s t := by
  rcases storeAtIndex_cases bs s with ⟨hin, he⟩ | ⟨-, he⟩ <;> rw [he] at h
  · cases h
    rw [← hsignal]
    exact (Writes.putBytes hfrom hlen s hin).completion 2 (.inl rfl)
  · cases h

/-- Everything an instruction that answers a next state did. -/
theorem exec_next_completion {i : Instr} {s t : State} (h : exec i s = .next t) : Completion i s t := by
  cases i
  case jpNnn nnn => cases h; exact completion_jump (by rw [toNat_addrWord]; rfl)
  case jpV0Nnn nnn => cases h; exact completion_jump (by rw [toNat_offsetTarget]; rfl)
  case callNnn nnn =>
    rcases s.push?_cases s.pc with ⟨room, hp⟩ | ⟨-, hp⟩ <;> simp only [exec, execCallNnn, hp] at h
    · cases h
      refine ⟨rfl, (frame_stack rfl s _ _).trans (frame_setPc_emit _ _ (addrWord nnn) .none), ?_, id, id⟩
      exact .call room (congrArg some (toNat_addrWord nnn).symm) rfl rfl
    · cases h
  case ret =>
    rcases s.pop?_cases with ⟨j, depth, hp⟩ | ⟨-, hp⟩ <;> simp only [exec, execRet, hp] at h
    · cases h
      refine ⟨rfl, (frame_stack rfl s s.stack _).trans (frame_setPc_emit _ _ (s.stack[j] + 2) .none), ?_, id, id⟩
      exact .ret j depth rfl rfl rfl
    · cases h
  case seVxKk | sneVxKk | seVxVy | sneVxVy => exact completion_of_skipIf rfl h
  case skpVx | sknpVx => exact completion_of_keySkip rfl h
  case ldVxKk | addVxKk | ldVxVy | orVxVy | andVxVy | xorVxVy | ldVxDt =>
    cases h; exact (Writes.setReg (List.mem_singleton_self _) s _).completion 2 (.inl rfl)
  case addVxVy | subVxVy | subnVxVy =>
    cases h; exact (Writes.resultThenFlag (by simp [footprint]) (by simp [footprint]) s _ _).completion 2 (.inl rfl)
  case shrVx =>
    cases h; exact (Writes.flagThenShiftRight (by simp [footprint]) (by simp [footprint]) s).completion 2 (.inl rfl)
  case shlVx =>
    cases h; exact (Writes.flagThenShiftLeft (by simp [footprint]) (by simp [footprint]) s).completion 2 (.inl rfl)
  case rndVxKk =>
    cases h
    exact ((Writes.drawn rfl s).trans (Writes.setReg (List.mem_singleton_self _) _ _)).completion 2 (.inl rfl)
  case ldINnn nnn => cases h; exact (Writes.setI rfl s (addrWord_lt nnn)).completion 2 (.inl rfl)
  case addIVx x =>
    cases h
    have hlt : (indexPlus s.i (s.reg x)).toNat < 4096 := by
      rw [toNat_indexPlus]
      exact Nat.mod_lt _ (by decide)
    exact (Writes.setI rfl s hlt).completion 2 (.inl rfl)
  case ldFVx x =>
    simp only [exec, execLdFVx] at h
    split at h
    · next hdigit =>
      cases h
      exact (Writes.setI rfl s (by rw [toNat_glyphAddress hdigit]; omega)).completion 2 (.inl rfl)
    · cases h
  case ldBVx => exact completion_of_storeAtIndex rfl rfl rfl h
  case ldMemVx x => exact completion_of_storeAtIndex rfl rfl (s.length_regsUpTo x).symm h
  case ldVxMem x =>
    rcases execLdVxMem_cases x s with ⟨-, he⟩ | ⟨-, he⟩ <;> simp only [exec, he] at h
    · cases h
      have hregs : ∀ r : Reg, r.val < (s.bytesAt (s.effAddr 0) (x.val + 1)).length → r ∈ (footprint (.ldVxMem x) s).regs := by
        intro r hr
        rw [State.length_bytesAt] at hr
        simp only [footprint, List.mem_filter, List.mem_finRange, true_and, decide_eq_true_eq, Fin.le_def]
        omega
      exact (Writes.setRegsFrom hregs s).completion 2 (.inl rfl)
    · cases h
  case drwVxVyN x y n =>
    simp only [exec, execDrwVxVyN] at h
    split at h
    · cases h
      exact ((Writes.setDisp rfl s _).trans (Writes.setReg (List.mem_singleton_self vf) _ _)).completion 2 (.inl rfl)
    · cases h
  case cls => cases h; exact (Writes.setDisp rfl s _).completion 2 (.inl rfl)
  case ldVxK => cases h; exact (Writes.setWait rfl s _).completion 2 (.inl rfl)
  case ldDtVx => cases h; exact (Writes.setDt rfl s _).completion 2 (.inl rfl)
  case ldStVx => cases h; exact (Writes.setSt rfl s _).completion 2 (.inl rfl)

/-- Settles O23: the frame of the completion. -/
theorem everyInstructionStaysInsideItsFootprint : Obligations.EveryInstructionStaysInsideItsFootprint :=
  fun _ _ _ h => (exec_next_completion h).frame

/-! ### What the step keeps -/

theorem toNat_add_two (w : Word) : (w + 2).toNat = (w.toNat + 2) % 65536 := BitVec.toNat_add w 2

theorem toNat_add_four (w : Word) : (w + 4).toNat = (w.toNat + 4) % 65536 := BitVec.toNat_add w 4

theorem loadedTarget_clock (i : Instr) (s : State) : loadedTarget i s.clock = loadedTarget i s := by
  cases i <;> rfl

/-- A loaded target is at most 0xFFF + 0xFF (10_state.md R28). -/
theorem loadedTarget_le {i : Instr} {s : State} {a : Nat} (h : loadedTarget i s = some a) : a ≤ 0x10FE := by
  cases i
  case jpNnn nnn | callNnn nnn =>
    cases h
    have hn := nnn.isLt
    omega
  case jpV0Nnn nnn =>
    cases h
    have hn := nnn.isLt
    have hv := (s.reg 0).isLt
    omega
  all_goals cases h

/-- A transfer leaves in the live stack entries what was there, or the address it left from. -/
theorem Transfer.live {i : Instr} {s t : State} (h : Transfer i s t) {p : Word → Prop} (hpc : p s.pc)
    (hlive : ∀ j : Fin 16, j.val < s.sp.val → p s.stack[j]) : ∀ j : Fin 16, j.val < t.sp.val → p t.stack[j] := by
  intro j hj
  cases h with
  | past k hk pc stack sp => rw [stack]; exact hlive j (sp ▸ hj)
  | jump target stack sp => rw [stack]; exact hlive j (sp ▸ hj)
  | ret top depth pc stack sp => rw [stack]; exact hlive j (by omega)
  | call room target stack sp =>
    simp only [stack, Fin.getElem_fin, Vector.getElem_set]
    split
    · exact hpc
    · exact hlive j (by omega)

/-- Settles O17: the fetch succeeded, so PC was at most 4094, and what the fetched instruction completed with keeps each clause
of the invariant. -/
theorem everyStepKeepsTheInvariant : Obligations.EveryStepKeepsTheInvariant := by
  intro s t hinv h
  obtain ⟨i, hfetch, hexec⟩ := step_next_cases h
  have hdone := exec_next_completion hexec
  have hpc : s.pc.toNat ≤ 4094 := Nat.le_of_succ_le_succ hfetch.inMemory
  have hconfig : t.config = s.config := hdone.frame.config
  refine ⟨?memory, hdone.index hinv.index, ?counter, hdone.transfer.live (p := fun w => w.toNat ≤ 4094) hpc hinv.live, ?rate⟩
  case memory => rw [hconfig]; exact hdone.memory hinv.memory
  case rate => exact sixty_le_clockRate t.config
  case counter =>
    cases hdone.transfer with
    | past k hk pc =>
      rw [pc, State.clock_pc]
      rcases hk with rfl | rfl
      · rw [toNat_add_two]; omega
      · rw [toNat_add_four]; omega
    | jump target => exact loadedTarget_le target
    | call _ target => exact loadedTarget_le target
    | ret j depth pc =>
      have hentry := hinv.live j (by rw [State.clock_sp] at depth; omega)
      rw [pc, State.clock_stack, toNat_add_two]
      omega

/-- Settles O18: nothing is listed in memory, I is 0, PC is 0x200 and the stack is empty. -/
theorem resetMeetsTheInvariant : Obligations.ResetMeetsTheInvariant :=
  ⟨Memory.wf_nil _, by decide, by decide, fun j hj => absurd hj (Nat.not_lt_zero j), sixty_le_clockRate _⟩

/-- Settles O20: each way an instruction moves PC and the stack keeps both even, the target it loads being even by
hypothesis. -/
theorem pcStaysEvenButForJumpTargets : Obligations.PcStaysEvenButForJumpTargets := by
  refine ⟨⟨by decide, fun j hj => absurd hj (Nat.not_lt_zero j)⟩, fun s t heven h htargets => ?_⟩
  obtain ⟨i, hfetch, hexec⟩ := step_next_cases h
  have htransfer := (exec_next_completion hexec).transfer
  refine ⟨?counter, htransfer.live (p := fun w => w.toNat % 2 = 0) heven.counter heven.live⟩
  case counter =>
    have hpc := heven.counter
    cases htransfer with
    | past k hk pc =>
      rw [pc, State.clock_pc]
      rcases hk with rfl | rfl
      · rw [toNat_add_two]; omega
      · rw [toNat_add_four]; omega
    | jump target => exact htargets i _ hfetch (by rw [← loadedTarget_clock, target])
    | call _ target => exact htargets i _ hfetch (by rw [← loadedTarget_clock, target])
    | ret j depth pc =>
      have hentry := heven.live j (by rw [State.clock_sp] at depth; omega)
      rw [pc, State.clock_stack, toNat_add_two]
      omega

end Sys2Proof.Machine

/-! SUPPORT. The step: what it runs, how it crashes, when it is refused, the signal it returns and the timers it moves
(40_step_dispatch.md, sections 1 to 4; 60_exceptions.md, section 1). -/

namespace Sys2Proof.Machine

/-! ### The fetched instruction -/

/-- The step of a state that fetches an instruction is its handler on the ticked state. -/
theorem step_of_fetches {s : State} {i : Instr} (h : Fetches s i) : step s = exec i s.clock := by
  have hdecode : decodeWord s.wordAtPc = some i := h.decoded
  rw [step_eq s h.noWait, if_pos (Nat.le_of_succ_le_succ h.inMemory), hdecode]

/-- A state fetches at most one instruction. -/
theorem Fetches.unique {s : State} {i j : Instr} (hi : Fetches s i) (hj : Fetches s j) : i = j :=
  Option.some.inj (hi.decoded.symm.trans hj.decoded)

theorem step_unrecognized {s : State} (hwait : s.wait = none) (hpc : s.pc.toNat ≤ 4094) (hnone : decodeWord s.wordAtPc = none) :
    step s = raise .unrecognizedOpcode s.clock := by
  rw [step_eq s hwait, if_pos hpc, hnone]

theorem step_outside {s : State} (hwait : s.wait = none) (hpc : 4094 < s.pc.toNat) : step s = raise .fetchOutOfBounds s := by
  rw [step_eq s hwait, if_neg (Nat.not_le.mpr hpc)]

/-- Settles O6: the two ways a step goes on after a fetch inside memory. -/
theorem stepRunsTheDecodedInstruction : Obligations.StepRunsTheDecodedInstruction :=
  ⟨fun _ _ => step_of_fetches, fun _ hwait hpc hnone => step_unrecognized hwait (Nat.le_of_succ_le_succ hpc) hnone⟩

/-- Settles O7: the crash is raised on the state as it was. -/
theorem fetchOutsideMemoryCrashes : Obligations.FetchOutsideMemoryCrashes :=
  fun _ hwait hpc => step_outside hwait hpc

/-! ### Crashes -/

/-- A handler that crashes does so under its condition, with its own cause and CRASH on the signal output, and but for a draw
leaves everything else as it was. -/
theorem exec_fault_cases {i : Instr} {s : State} {f : Fault} (h : exec i s = .fault f) :
    CrashesOn i s ∧ f.cause = handlerCause i ∧ f.left.signal = .crash ∧
      ((∀ x y n, i ≠ .drwVxVyN x y n) → f.left = s.emit .crash) := by
  rcases exec_cases i s with ⟨t, ht, -⟩ | ⟨c, s', hraise, hcrash, hcause, hleft, -, hsame⟩
  · rw [ht] at h; cases h
  · rw [hraise, raise_eq_fault] at h
    subst h
    refine ⟨hcrash, hcause _, by rw [hleft, State.emit_signal], fun hdraw => ?_⟩
    rw [hleft, hsame hdraw]

/-- Where its crash condition holds, a handler crashes. -/
theorem exec_of_crashesOn {i : Instr} {s : State} (h : CrashesOn i s) : ∃ f, exec i s = .fault f := by
  rcases exec_cases i s with ⟨t, -, hn⟩ | ⟨c, s', hraise, -⟩
  · exact absurd h hn
  · exact ⟨_, hraise⟩

/-- Settles O11. -/
theorem handlerCrashChangesNothing : Obligations.HandlerCrashChangesNothing := by
  intro i s f hdraw h
  obtain ⟨-, -, -, hleft⟩ := exec_fault_cases h
  exact hleft hdraw

/-- The causes of the handlers are the six from 3 on. -/
theorem three_le_handlerCause {i : Instr} {s : State} (h : CrashesOn i s) : 3 ≤ handlerCause i := by
  cases i
  case callNnn | ret | skpVx | sknpVx | ldFVx | ldBVx | ldMemVx | ldVxMem | drwVxVyN => simp [handlerCause]
  all_goals exact h.elim

/-- Settles O13: a crash of a step is one of three, told apart by its cause, and each condition brings its crash about. -/
theorem stepCrashesExactlyForTheListedCauses : Obligations.StepCrashesExactlyForTheListedCauses := by
  intro s hwait
  refine ⟨⟨?_, fun hpc => ⟨_, step_outside hwait hpc, rfl⟩⟩,
    ⟨?_, fun ⟨hpc, hnone⟩ => ⟨_, step_unrecognized hwait hpc hnone, rfl⟩⟩, fun c hc => ⟨?_, ?_⟩⟩
  · rintro ⟨f, hstep, hcause⟩
    obtain ⟨-, ⟨hpc, -⟩ | ⟨-, -, rfl⟩ | ⟨i, -, hexec⟩⟩ := step_fault_cases hstep
    · exact hpc
    · cases hcause
    · obtain ⟨hcrash, hown, -⟩ := exec_fault_cases hexec
      have hthree := three_le_handlerCause hcrash
      omega
  · rintro ⟨f, hstep, hcause⟩
    obtain ⟨-, ⟨-, rfl⟩ | ⟨hpc, hnone, -⟩ | ⟨i, -, hexec⟩⟩ := step_fault_cases hstep
    · cases hcause
    · exact ⟨hpc, hnone⟩
    · obtain ⟨hcrash, hown, -⟩ := exec_fault_cases hexec
      have hthree := three_le_handlerCause hcrash
      omega
  · rintro ⟨f, hstep, rfl⟩
    obtain ⟨-, ⟨-, rfl⟩ | ⟨-, -, rfl⟩ | ⟨i, hfetch, hexec⟩⟩ := step_fault_cases hstep
    · exact absurd hc (by simp [Fault.cause])
    · exact absurd hc (by simp [Fault.cause])
    · obtain ⟨hcrash, hown, -⟩ := exec_fault_cases hexec
      exact ⟨i, hfetch, (crashesOn_clock i s).mp hcrash, hown.symm⟩
  · rintro ⟨i, hfetch, hcrash, rfl⟩
    obtain ⟨f, hexec⟩ := exec_of_crashesOn ((crashesOn_clock i s).mpr hcrash)
    obtain ⟨-, hown, -⟩ := exec_fault_cases hexec
    exact ⟨f, (step_of_fetches hfetch).trans hexec, hown⟩

/-- A draw that crashes leaves what its rows inside memory composed: those are the rows below 4096 - I. -/
theorem composeRows_error_rows {s : State} (hi : s.i.toNat < 4096) {xs ys n : Nat} {cv out : Canvas}
    (h : composeRows s xs ys n 0 cv = .error out) : composeRows s xs ys (4096 - s.i.toNat) 0 cv = .ok out := by
  obtain ⟨m, -, habove, hbelow, hrows⟩ := composeRows_error s xs ys n 0 cv out h
  simp only [State.effAddr] at habove hbelow
  have hm : m = 4096 - s.i.toNat := by
    cases m with
    | zero => omega
    | succ k =>
      have hlast := hbelow k (Nat.zero_le k) (by omega)
      omega
  rwa [← hm]

/-- Settles O12: the rows the crash kept are those of the shorter draw, which completes. -/
theorem spriteCrashKeepsTheRowsInsideMemory : Obligations.SpriteCrashKeepsTheRowsInsideMemory := by
  intro x y n s f hi h
  simp only [exec, execDrwVxVyN] at h ⊢
  split at h
  · cases h
  · next cv hrows =>
    rw [composeRows_error_rows hi hrows]
    cases h
    exact ⟨_, rfl, rfl⟩

/-! ### Refusals and signals -/

theorem exec_ne_refused (i : Instr) (s : State) (r : Refusal) : exec i s ≠ .refused r := by
  intro h
  rcases exec_cases i s with ⟨t, ht, -⟩ | ⟨c, s', hraise, -⟩
  · rw [ht] at h; cases h
  · rw [hraise] at h; exact raise_ne_refused c s' r h

/-- Settles O14: with no wait pending a step is a crash or a handler, and no handler refuses. -/
theorem stepIsRefusedOnlyWhileAwaitingAKey : Obligations.StepIsRefusedOnlyWhileAwaitingAKey := by
  refine ⟨exec_ne_refused, fun s r => ?_⟩
  cases hwait : s.wait with
  | some x => rw [step_waiting s x hwait]; simp [eq_comm]
  | none =>
    refine ⟨fun h => ?_, fun ⟨_, hsome⟩ => by cases hsome⟩
    rw [step_eq s hwait] at h
    split at h
    · split at h
      · exact absurd h (exec_ne_refused _ _ _)
      · exact absurd h (raise_ne_refused _ _ _)
    · exact absurd h (raise_ne_refused _ _ _)

/-- Settles O16: a completion carries its instruction's signal, and every crash is raised with CRASH. -/
theorem eachInstructionReturnsItsSignal : Obligations.EachInstructionReturnsItsSignal := by
  have hcrash : ∀ (i : Instr) (s : State) (f : Fault), exec i s = .fault f → f.left.signal = .crash := by
    intro i s f h
    obtain ⟨-, -, hsignal, -⟩ := exec_fault_cases h
    exact hsignal
  refine ⟨fun i s => ⟨fun t h => (exec_next_completion h).signal, hcrash i s⟩, fun i s t hfetch h => ?_, fun s f h => ?_⟩
  · rw [step_of_fetches hfetch] at h
    exact (exec_next_completion h).signal
  · obtain ⟨-, ⟨-, rfl⟩ | ⟨-, -, rfl⟩ | ⟨i, -, hexec⟩⟩ := step_fault_cases h
    · rfl
    · rfl
    · exact hcrash i _ f hexec

/-! ### Timers -/

theorem cyc_iterate_clock (s : State) (n : Nat) : (State.clock^[n] s).cyc = s.cyc + n := by
  induction n with
  | zero => rfl
  | succ n ih => rw [Function.iterate_succ_apply', State.clock_cyc, ih]; omega

theorem config_iterate_clock (s : State) (n : Nat) : (State.clock^[n] s).config = s.config := by
  induction n with
  | zero => rfl
  | succ n ih => rw [Function.iterate_succ_apply', State.clock_config, ih]

/-- A timer that the clock ticks goes down by one for each multiple of P that CYC passes. -/
theorem timer_iterate_clock {timer : State → Byte}
    (htick : ∀ s, (timer s.clock).toNat = (timer s).toNat - (if (s.cyc + 1) % s.config.period = 0 then 1 else 0))
    (s : State) (n : Nat) :
    (timer (State.clock^[n] s)).toNat = (timer s).toNat - ((s.cyc + n) / s.config.period - s.cyc / s.config.period) := by
  induction n with
  | zero => simp
  | succ n ih =>
    have hpassed : s.cyc / s.config.period ≤ (s.cyc + n) / s.config.period := Nat.div_le_div_right (Nat.le_add_right _ _)
    rw [Function.iterate_succ_apply', htick, ih, cyc_iterate_clock, config_iterate_clock, ← Nat.add_assoc, Nat.succ_div]
    simp only [Nat.dvd_iff_mod_eq_zero]
    omega

/-- Settles O9: the count is an induction over the clock, and a handler other than the two timer writes keeps the timers by its
frame. -/
theorem timersCountDownOnceEveryPeriod : Obligations.TimersCountDownOnceEveryPeriod := by
  refine ⟨fun s n => ⟨cyc_iterate_clock s n, timer_iterate_clock State.toNat_clock_dt s n,
    timer_iterate_clock State.toNat_clock_st s n⟩, fun s t i hfetch h => ?_⟩
  rw [step_of_fetches hfetch] at h
  have hframe := (exec_next_completion h).frame
  refine ⟨fun hi => hframe.delay ?_, fun hi => hframe.sound ?_⟩
  · cases i
    case ldDtVx x => exact absurd rfl (hi x)
    all_goals rfl
  · cases i
    case ldStVx x => exact absurd rfl (hi x)
    all_goals rfl

/-- Settles O10: the handler runs on the ticked state, so it reads the timers after the tick and writes over them. -/
theorem theTickComesBeforeTheHandler : Obligations.TheTickComesBeforeTheHandler := by
  intro s x hdue
  have hdt : s.clock.dt.toNat = s.dt.toNat - 1 := by rw [State.toNat_clock_dt]; exact congrArg _ (if_pos hdue)
  have hst : s.clock.st.toNat = s.st.toNat - 1 := by rw [State.toNat_clock_st]; exact congrArg _ (if_pos hdue)
  refine ⟨fun h => ⟨_, (step_of_fetches h).trans rfl, ?_, hdt⟩, fun h => ⟨_, (step_of_fetches h).trans rfl, rfl, hst⟩,
    fun h => ⟨_, (step_of_fetches h).trans rfl, rfl, hdt⟩⟩
  rw [State.emit_reg, State.advance_reg, State.reg_setReg_self, hdt]

end Sys2Proof.Machine

/-! SUPPORT. What no step can tell apart: states that differ only in the last signal, in stack entries at or above SP, or, but
for a draw, in DISP (10_state.md R31 and R39; 44_display.md R210). -/

namespace Sys2Proof.Machine

/-! ### The handlers with a crash of their own, path by path -/

theorem execRet_of_depth {s : State} {j : Fin 16} (h : s.sp.val = j.val + 1) :
    execRet s = complete .none ({ s with sp := ⟨j.val, by omega⟩ }.setPc (s.stack[j] + 2)) := by
  rcases s.pop?_cases with ⟨k, hk, hp⟩ | ⟨hempty, -⟩
  · obtain rfl : k = j := Fin.ext (by omega)
    rw [execRet, hp]
  · omega

theorem execRet_of_empty {s : State} (h : s.sp.val = 0) : execRet s = raise .stackUnderflow s := by
  rcases s.pop?_cases with ⟨k, hk, -⟩ | ⟨-, hp⟩
  · omega
  · rw [execRet, hp]

theorem execCallNnn_of_room {s : State} (nnn : Addr) (h : s.sp.val < 16) :
    execCallNnn nnn s =
      complete .none ({ s with
        stack := s.stack.set s.sp.val s.pc h
        sp := ⟨s.sp.val + 1, Nat.succ_lt_succ h⟩ }.setPc (addrWord nnn)) := by
  rcases s.push?_cases s.pc with ⟨_, hp⟩ | ⟨hfull, -⟩
  · rw [execCallNnn, hp]
  · omega

theorem execCallNnn_of_full {s : State} (nnn : Addr) (h : s.sp.val = 16) :
    execCallNnn nnn s = raise .stackOverflow s := by
  rcases s.push?_cases s.pc with ⟨hroom, -⟩ | ⟨-, hp⟩
  · omega
  · rw [execCallNnn, hp]

theorem keySkip_of_key {s : State} {x k : Reg} (want : Bool) (h : (s.reg x).toNat = k.val) :
    keySkip want x s = skipIf (s.keys[k] == want) s := by
  rcases keyIndex?_cases (s.reg x) with ⟨j, hj, hk⟩ | ⟨hbig, -⟩
  · obtain rfl : j = k := Fin.ext (by omega)
    rw [keySkip, hk]
  · omega

theorem keySkip_of_big {s : State} {x : Reg} (want : Bool) (h : 16 ≤ (s.reg x).toNat) :
    keySkip want x s = raise .invalidKeyIndex s := by
  rcases keyIndex?_cases (s.reg x) with ⟨j, hj, -⟩ | ⟨-, hk⟩
  · omega
  · rw [keySkip, hk]

theorem execLdFVx_of_digit {s : State} {x : Reg} (h : (s.reg x).toNat < 16) :
    execLdFVx x s = indexDone (s.setI (glyphAddress (s.reg x))) := if_pos h

theorem execLdFVx_of_big {s : State} {x : Reg} (h : 16 ≤ (s.reg x).toNat) : execLdFVx x s = raise .invalidFontDigit s :=
  if_neg (Nat.not_lt.mpr h)

theorem storeAtIndex_of_inside {bs : List Byte} {s : State} (h : s.effAddr 0 + bs.length ≤ 4096) :
    storeAtIndex bs s = complete .none ((s.putBytes (s.effAddr 0) bs).advance 2) := by
  rcases storeAtIndex_cases bs s with ⟨-, hstore⟩ | ⟨hout, -⟩
  · exact hstore
  · omega

theorem storeAtIndex_of_outside {bs : List Byte} {s : State} (h : 4096 < s.effAddr 0 + bs.length) :
    storeAtIndex bs s = raise .memoryOutOfBounds s := by
  rcases storeAtIndex_cases bs s with ⟨hin, -⟩ | ⟨-, hcrash⟩
  · omega
  · exact hcrash

theorem execLdVxMem_of_inside {x : Reg} {s : State} (h : s.effAddr 0 + (x.val + 1) ≤ 4096) :
    execLdVxMem x s = complete .none ((s.setRegsFrom 0 (s.bytesAt (s.effAddr 0) (x.val + 1))).advance 2) := by
  rcases execLdVxMem_cases x s with ⟨-, hload⟩ | ⟨hout, -⟩
  · exact hload
  · omega

theorem execLdVxMem_of_outside {x : Reg} {s : State} (h : 4096 < s.effAddr 0 + (x.val + 1)) :
    execLdVxMem x s = raise .memoryOutOfBounds s := by
  rcases execLdVxMem_cases x s with ⟨hin, -⟩ | ⟨-, hcrash⟩
  · omega
  · exact hcrash

theorem execDrwVxVyN_of_ok {x y : Reg} {n : Nat} {s : State} {cv : Canvas}
    (h : composeRows s (s.reg x).toNat (s.reg y).toNat n 0 { disp := s.disp, hit := false } = .ok cv) :
    execDrwVxVyN x y n s = complete .redraw (((s.setDisp cv.disp).setFlag cv.hit).advance 2) := by
  rw [execDrwVxVyN, h]

theorem execDrwVxVyN_of_error {x y : Reg} {n : Nat} {s : State} {cv : Canvas}
    (h : composeRows s (s.reg x).toNat (s.reg y).toNat n 0 { disp := s.disp, hit := false } = .error cv) :
    execDrwVxVyN x y n s = raise .spriteOutOfBounds (s.setDisp cv.disp) := by
  rw [execDrwVxVyN, h]

/-! ### Relations that no instruction observes -/

/-- `u` with the display and the stack of `s`. -/
def State.keepScreenAndStack (s u : State) : State := { u with disp := s.disp, stack := s.stack, sp := s.sp }

/-- A relation between states that agree in all an instruction reads, and that every write made to both keeps. -/
structure Unobserved (R : State → State → Prop) : Prop where
  agree : ∀ {s t}, R s t → ∃ d k g, t = { s with disp := d, stack := k, signal := g }
  write : ∀ {s t}, R s t → ∀ u : State, R (s.keepScreenAndStack u) (t.keepScreenAndStack u)
  clock : ∀ {s t}, R s t → R s.clock t.clock
  display : ∀ {s t}, R s t → ∀ d, R (s.setDisp d) (t.setDisp d)
  push : ∀ {s t}, R s t → ∀ (w : Word) (h : s.sp.val < 16),
    R { s with stack := s.stack.set s.sp.val w h, sp := ⟨s.sp.val + 1, Nat.succ_lt_succ h⟩ }
      { t with stack := t.stack.set s.sp.val w h, sp := ⟨s.sp.val + 1, Nat.succ_lt_succ h⟩ }
  pop : ∀ {s t}, R s t → ∀ j : Fin 16, s.sp.val = j.val + 1 → t.stack[j] = s.stack[j] ∧
    R { s with sp := ⟨j.val, by omega⟩ } { t with sp := ⟨j.val, by omega⟩ }

section
variable {R : State → State → Prop} (hR : Unobserved R) {s t : State} (h : R s t)
include hR h

/-- Two handlers that complete with the same writes, the display and the stack left alone. -/
theorem Unobserved.sameEnding_complete {u u' : State} (hu : s.keepScreenAndStack u = u) (hu' : t.keepScreenAndStack u = u')
    (g : Signal) : SameEnding R (complete g u) (complete g u') := by
  have hwrite := hR.write h (u.emit g)
  have hs : s.keepScreenAndStack (u.emit g) = u.emit g := congrArg (State.emit · g) hu
  have ht : t.keepScreenAndStack (u.emit g) = u'.emit g := congrArg (State.emit · g) hu'
  rwa [hs, ht] at hwrite

/-- Two handlers that crash for the same cause. -/
theorem Unobserved.sameEnding_raise {c : State → Fault} (hcause : ∀ u v, (c u).cause = (c v).cause)
    (hleft : ∀ u, (c u).left = u) : SameEnding R (raise c s) (raise c t) := by
  refine ⟨hcause _ _, ?_⟩
  rw [hleft, hleft]
  obtain ⟨d, k, g, rfl⟩ := hR.agree h
  exact hR.write h (s.emit .crash)

theorem Unobserved.sameEnding_keySkip (want : Bool) (x : Reg) : SameEnding R (keySkip want x s) (keySkip want x t) := by
  obtain ⟨d, k, g, rfl⟩ := hR.agree h
  rcases keyIndex?_cases (s.reg x) with ⟨key, hkey, -⟩ | ⟨hbig, -⟩
  · rw [keySkip_of_key want hkey, keySkip_of_key (s := { s with disp := d, stack := k, signal := g }) want hkey]
    exact hR.sameEnding_complete h rfl rfl .none
  · rw [keySkip_of_big want hbig, keySkip_of_big (s := { s with disp := d, stack := k, signal := g }) want hbig]
    exact hR.sameEnding_raise h (fun _ _ => rfl) (fun _ => rfl)

theorem Unobserved.sameEnding_storeAtIndex (bs : List Byte) : SameEnding R (storeAtIndex bs s) (storeAtIndex bs t) := by
  obtain ⟨d, k, g, rfl⟩ := hR.agree h
  rcases Nat.lt_or_ge 4096 (s.effAddr 0 + bs.length) with hout | hin
  · rw [storeAtIndex_of_outside hout, storeAtIndex_of_outside (s := { s with disp := d, stack := k, signal := g }) hout]
    exact hR.sameEnding_raise h (fun _ _ => rfl) (fun _ => rfl)
  · rw [storeAtIndex_of_inside hin, storeAtIndex_of_inside (s := { s with disp := d, stack := k, signal := g }) hin]
    exact hR.sameEnding_complete h rfl rfl .none

theorem Unobserved.sameEnding_execLdVxMem (x : Reg) : SameEnding R (execLdVxMem x s) (execLdVxMem x t) := by
  obtain ⟨d, k, g, rfl⟩ := hR.agree h
  rcases Nat.lt_or_ge 4096 (s.effAddr 0 + (x.val + 1)) with hout | hin
  · rw [execLdVxMem_of_outside hout, execLdVxMem_of_outside (s := { s with disp := d, stack := k, signal := g }) hout]
    exact hR.sameEnding_raise h (fun _ _ => rfl) (fun _ => rfl)
  · rw [execLdVxMem_of_inside hin, execLdVxMem_of_inside (s := { s with disp := d, stack := k, signal := g }) hin]
    exact hR.sameEnding_complete h rfl rfl .none

theorem Unobserved.sameEnding_execLdFVx (x : Reg) : SameEnding R (execLdFVx x s) (execLdFVx x t) := by
  obtain ⟨d, k, g, rfl⟩ := hR.agree h
  rcases Nat.lt_or_ge (s.reg x).toNat 16 with hdigit | hbig
  · rw [execLdFVx_of_digit hdigit, execLdFVx_of_digit (s := { s with disp := d, stack := k, signal := g }) hdigit]
    exact hR.sameEnding_complete h rfl rfl .none
  · rw [execLdFVx_of_big hbig, execLdFVx_of_big (s := { s with disp := d, stack := k, signal := g }) hbig]
    exact hR.sameEnding_raise h (fun _ _ => rfl) (fun _ => rfl)

/-- A call writes the same entry on both sides. -/
theorem Unobserved.sameEnding_execCallNnn (nnn : Addr) : SameEnding R (execCallNnn nnn s) (execCallNnn nnn t) := by
  have hpush := hR.push h s.pc
  obtain ⟨d, k, g, rfl⟩ := hR.agree h
  rcases Nat.lt_or_eq_of_le (Nat.le_of_lt_succ s.sp.isLt) with hroom | hfull
  · rw [execCallNnn_of_room nnn hroom, execCallNnn_of_room (s := { s with disp := d, stack := k, signal := g }) nnn hroom]
    exact hR.sameEnding_complete (hpush hroom) rfl rfl .none
  · rw [execCallNnn_of_full nnn hfull, execCallNnn_of_full (s := { s with disp := d, stack := k, signal := g }) nnn hfull]
    exact hR.sameEnding_raise h (fun _ _ => rfl) (fun _ => rfl)

/-- A return reads the same entry on both sides. -/
theorem Unobserved.sameEnding_execRet : SameEnding R (execRet s) (execRet t) := by
  have hpop := hR.pop h
  obtain ⟨d, k, g, rfl⟩ := hR.agree h
  rcases s.pop?_cases with ⟨j, hdepth, -⟩ | ⟨hempty, -⟩
  · obtain ⟨hentry, hpopped⟩ := hpop j hdepth
    rw [execRet_of_depth hdepth, execRet_of_depth (s := { s with disp := d, stack := k, signal := g }) hdepth, hentry]
    exact hR.sameEnding_complete hpopped rfl rfl .none
  · rw [execRet_of_empty hempty, execRet_of_empty (s := { s with disp := d, stack := k, signal := g }) hempty]
    exact hR.sameEnding_raise h (fun _ _ => rfl) (fun _ => rfl)

/-- A draw composes the same canvas on both sides where both start from the same display. -/
theorem Unobserved.sameEnding_execDrwVxVyN (hdisp : t.disp = s.disp) (x y : Reg) (n : Nat) :
    SameEnding R (execDrwVxVyN x y n s) (execDrwVxVyN x y n t) := by
  have hdisplay := hR.display h
  obtain ⟨d, k, g, rfl⟩ := hR.agree h
  obtain rfl : d = s.disp := hdisp
  have hrows := composeRows_congr s { s with stack := k, signal := g } rfl (fun _ => rfl) (s.reg x).toNat (s.reg y).toNat n 0
    { disp := s.disp, hit := false }
  cases hc : composeRows s (s.reg x).toNat (s.reg y).toNat n 0 { disp := s.disp, hit := false } with
  | ok cv =>
    rw [execDrwVxVyN_of_ok hc, execDrwVxVyN_of_ok (hrows.trans hc)]
    exact hR.sameEnding_complete (hdisplay cv.disp) rfl rfl .redraw
  | error cv =>
    rw [execDrwVxVyN_of_error hc, execDrwVxVyN_of_error (hrows.trans hc)]
    exact hR.sameEnding_raise (hdisplay cv.disp) (fun _ _ => rfl) (fun _ => rfl)

/-- No instruction but a draw tells apart two states of such a relation, and a draw tells them apart only by DISP. -/
theorem Unobserved.sameEnding_exec {i : Instr} (hdraw : (∀ x y n, i ≠ .drwVxVyN x y n) ∨ t.disp = s.disp) :
    SameEnding R (exec i s) (exec i t) := by
  cases i
  case ret => exact hR.sameEnding_execRet h
  case callNnn nnn => exact hR.sameEnding_execCallNnn h nnn
  case skpVx x => exact hR.sameEnding_keySkip h true x
  case sknpVx x => exact hR.sameEnding_keySkip h false x
  case ldFVx x => exact hR.sameEnding_execLdFVx h x
  case ldVxMem x => exact hR.sameEnding_execLdVxMem h x
  case drwVxVyN x y n => exact hR.sameEnding_execDrwVxVyN h (hdraw.resolve_left fun hn => hn x y n rfl) x y n
  all_goals obtain ⟨d, k, g, rfl⟩ := hR.agree h
  case ldBVx x => exact hR.sameEnding_storeAtIndex h _
  case ldMemVx x => exact hR.sameEnding_storeAtIndex h _
  case cls => exact hR.sameEnding_complete (hR.display h Display.blank) rfl rfl .redraw
  all_goals exact hR.sameEnding_complete h rfl rfl _

/-- No step tells apart two states of such a relation that show the same display. -/
theorem Unobserved.sameEnding_step (hdisp : t.disp = s.disp) : SameEnding R (step s) (step t) := by
  obtain ⟨d, k, g, ht⟩ := hR.agree h
  cases hwait : s.wait with
  | some x => rw [step_waiting s x hwait, step_waiting t x (by rw [ht, ← hwait])]; rfl
  | none =>
    have hwait' : t.wait = none := by rw [ht, ← hwait]
    rcases Nat.lt_or_ge 4094 s.pc.toNat with hout | hin
    · rw [step_outside hwait hout, step_outside hwait' (by rw [ht]; exact hout)]
      exact hR.sameEnding_raise h (fun _ _ => rfl) (fun _ => rfl)
    · have hin' : t.pc.toNat ≤ 4094 := by rw [ht]; exact hin
      have hword : t.wordAtPc = s.wordAtPc := by rw [ht]; rfl
      cases hdecode : decodeWord s.wordAtPc with
      | none =>
        rw [step_unrecognized hwait hin hdecode, step_unrecognized hwait' hin' (by rw [hword, hdecode])]
        exact hR.sameEnding_raise (hR.clock h) (fun _ _ => rfl) (fun _ => rfl)
      | some i =>
        have hs : Fetches s i := ⟨hwait, Nat.succ_le_succ hin, hdecode⟩
        have ht : Fetches t i := ⟨hwait', Nat.succ_le_succ hin', (congrArg decodeWord hword).trans hdecode⟩
        rw [step_of_fetches hs, step_of_fetches ht]
        exact hR.sameEnding_exec (hR.clock h) (.inr hdisp)

end

/-! ### The three relations -/

theorem unobserved_sameButDisplay : Unobserved SameButDisplay where
  agree {s t} h := ⟨t.disp, s.stack, s.signal, h⟩
  write {s t} h u := by rw [h]; rfl
  clock {s t} h := by rw [h]; rfl
  display {s t} h d := by rw [h]; rfl
  push {s t} h w room := by rw [h]; rfl
  pop {s t} h j depth := by rw [h]; exact ⟨rfl, rfl⟩

theorem unobserved_sameButStale : Unobserved SameButStale where
  agree {s t} h := ⟨s.disp, t.stack, s.signal, h.rest⟩
  write {s t} h u := by
    obtain ⟨hlive, hrest⟩ := h
    refine ⟨hlive, ?_⟩
    rw [hrest]; rfl
  clock {s t} h := by
    obtain ⟨hlive, hrest⟩ := h
    refine ⟨hlive, ?_⟩
    rw [hrest]; rfl
  display {s t} h d := by
    obtain ⟨hlive, hrest⟩ := h
    refine ⟨hlive, ?_⟩
    rw [hrest]; rfl
  push {s t} h w room := by
    obtain ⟨hlive, hrest⟩ := h
    refine ⟨fun j hj => ?_, by rw [hrest]⟩
    simp only [Fin.getElem_fin, Vector.getElem_set]
    split
    · rfl
    · exact hlive j (by simp only at hj; omega)
  pop {s t} h j depth := by
    obtain ⟨hlive, hrest⟩ := h
    refine ⟨hlive j (by omega), fun k hk => hlive k (by simp only at hk; omega), ?_⟩
    rw [hrest]

/-- Two states that differ only in the last signal. -/
def SameButSignal (s t : State) : Prop := t = { s with signal := t.signal }

theorem unobserved_sameButSignal : Unobserved SameButSignal where
  agree {s t} h := ⟨s.disp, s.stack, t.signal, h⟩
  write {s t} h u := by rw [h]; rfl
  clock {s t} h := by rw [h]; rfl
  display {s t} h d := by rw [h]; rfl
  push {s t} h w room := by rw [h]; rfl
  pop {s t} h j depth := by rw [h]; exact ⟨rfl, rfl⟩

theorem SameButSignal.eq_of_signal {s t : State} (h : SameButSignal s t) (hsignal : t.signal = s.signal) : t = s := by
  rw [h, hsignal]

/-- The crash with a cause's number and the state it leaves. -/
def Fault.ofCause : Nat → State → Fault
  | 1, s => .fetchOutOfBounds s
  | 2, s => .unrecognizedOpcode s
  | 3, s => .stackOverflow s
  | 4, s => .stackUnderflow s
  | 5, s => .invalidKeyIndex s
  | 6, s => .invalidFontDigit s
  | 7, s => .memoryOutOfBounds s
  | _, s => .spriteOutOfBounds s

/-- A crash is its cause and the state it leaves. -/
theorem Fault.ofCause_cause_left (f : Fault) : Fault.ofCause f.cause f.left = f := by
  cases f <;> rfl

/-- A step that completes answers the signal of the instruction at PC, so two steps that agree but for the signal agree. -/
theorem signal_eq_of_step_next {s t a b : State} (h : SameButSignal s t) (hs : step s = .next a) (ht : step t = .next b) :
    b.signal = a.signal := by
  obtain ⟨i, hi, hexec⟩ := step_next_cases hs
  obtain ⟨j, hj, hexec'⟩ := step_next_cases ht
  have hi' : Fetches t i := by rw [h]; exact ⟨hi.noWait, hi.inMemory, hi.decoded⟩
  rw [(exec_next_completion hexec).signal, (exec_next_completion hexec').signal, hj.unique hi']

/-- Settles O15: the two steps end alike but for the signal, and the signal each writes does not depend on the last one. -/
theorem theStepIgnoresTheLastSignal : Obligations.TheStepIgnoresTheLastSignal := by
  intro s g _
  have h : SameButSignal s { s with signal := g } := rfl
  have hending := unobserved_sameButSignal.sameEnding_step h rfl
  obtain ⟨-, -, hcrash⟩ := eachInstructionReturnsItsSignal
  cases hs : step s <;> cases ht : step { s with signal := g } <;> rw [hs, ht] at hending
  case next.next a b => rw [hending.eq_of_signal (signal_eq_of_step_next h hs ht)]
  case fault.fault f f' =>
    obtain ⟨hcause, hleft⟩ := hending
    have hstate := hleft.eq_of_signal ((hcrash _ _ ht).trans (hcrash _ _ hs).symm)
    rw [← f.ofCause_cause_left, ← f'.ofCause_cause_left, hcause, hstate]
  case refused.refused => exact congrArg _ hending.symm
  all_goals exact hending.elim

/-- Settles O25. -/
theorem staleStackEntriesAreUnobservable : Obligations.StaleStackEntriesAreUnobservable := by
  intro s t h
  exact unobserved_sameButStale.sameEnding_step h (by rw [h.rest])

/-! ### What only some instructions write -/

theorem footprint_display {i : Instr} {s : State} (h : (footprint i s).display = true) :
    i = .cls ∨ ∃ x y n, i = .drwVxVyN x y n := by
  cases i
  case cls => exact .inl rfl
  case drwVxVyN x y n => exact .inr ⟨x, y, n, rfl⟩
  all_goals cases h

theorem footprint_index {i : Instr} {s : State} (h : (footprint i s).index = true) :
    ∃ nnn x, i = .ldINnn nnn ∨ i = .addIVx x ∨ i = .ldFVx x := by
  cases i
  case ldINnn nnn => exact ⟨nnn, 0, .inl rfl⟩
  case addIVx x => exact ⟨0, x, .inr (.inl rfl)⟩
  case ldFVx x => exact ⟨0, x, .inr (.inr rfl)⟩
  all_goals cases h

/-- Settles O24: DISP is in the footprint of those two only, and equality but for DISP is a relation no other instruction
observes. -/
theorem onlyDrawAndClearTouchTheDisplay : Obligations.OnlyDrawAndClearTouchTheDisplay := by
  refine ⟨fun s t h hdisp => ?_, fun i s t hdraw h => unobserved_sameButDisplay.sameEnding_exec h (.inl hdraw)⟩
  obtain ⟨i, hfetch, hexec⟩ := step_next_cases h
  have hwritten : (footprint i s.clock).display = true := by
    by_contra hf
    exact hdisp ((exec_next_completion hexec).frame.display (Bool.eq_false_of_not_eq_true hf))
  rcases footprint_display hwritten with rfl | ⟨x, y, n, rfl⟩
  · exact .inl hfetch
  · exact .inr ⟨x, y, n, hfetch⟩

/-- Settles O27: KEYS and the parameters are in no footprint, and I is in the footprint of those three only. -/
theorem stepKeepsKeysParametersAndIndex : Obligations.StepKeepsKeysParametersAndIndex := by
  intro s t h
  obtain ⟨i, hfetch, hexec⟩ := step_next_cases h
  have hframe := (exec_next_completion hexec).frame
  refine ⟨hframe.keys, hframe.config, fun hindex => ?_⟩
  have hwritten : (footprint i s.clock).index = true := by
    by_contra hf
    exact hindex (hframe.index (Bool.eq_false_of_not_eq_true hf))
  rcases footprint_index hwritten with ⟨nnn, x, rfl | rfl | rfl⟩
  · exact ⟨nnn, x, .inl hfetch⟩
  · exact ⟨nnn, x, .inr (.inl hfetch)⟩
  · exact ⟨nnn, x, .inr (.inr hfetch)⟩

end Sys2Proof.Machine

/-! SUPPORT. The control transfers with a crash or a sum, and the skips on two registers and on keys (41_control_transfer.md,
sections 2 to 4; 45_timers_keys.md, section 2). -/

namespace Sys2Proof.Machine

/-- Settles O29: the target is the 16-bit sum of a 12-bit address and a byte, which never wraps. -/
theorem jumpWithOffsetAddsV0 : Obligations.JumpWithOffsetAddsV0 := by
  intro nnn s
  exact ⟨_, rfl, toNat_offsetTarget nnn (s.reg 0), rfl, frame_setPc_emit {} s (offsetTarget nnn (s.reg 0)) .none⟩

/-- Settles O34: both skips end in the shared skip, SE on the equality test and SNE on its negation. -/
theorem registerSkipsCompareTwoRegisters : Obligations.RegisterSkipsCompareTwoRegisters := by
  intro x y s
  have hse : (s.reg x == s.reg y) = true ↔ s.reg x = s.reg y := beq_iff_eq
  have hsne : (s.reg x != s.reg y) = true ↔ s.reg x ≠ s.reg y := bne_iff_ne
  exact ⟨skipIf_completes hse s, skipIf_completes hsne s⟩

/-- Settles O30: a full stack crashes, and otherwise the call pushes PC. -/
theorem callPushesItsOwnAddress : Obligations.CallPushesItsOwnAddress := by
  intro nnn s
  refine ⟨fun hfull => execCallNnn_of_full nnn hfull, fun hroom => ?_⟩
  have hexec : exec (.callNnn nnn) s = _ := execCallNnn_of_room nnn hroom
  exact ⟨_, hexec, rfl, rfl, toNat_addrWord nnn, rfl, (exec_next_completion hexec).frame⟩

/-- Settles O31: an empty stack crashes, and otherwise the return pops the entry below SP. -/
theorem returnGoesPastThePoppedAddress : Obligations.ReturnGoesPastThePoppedAddress := by
  intro s
  refine ⟨execRet_of_empty, fun j hdepth => ?_⟩
  have hexec : exec .ret s = _ := execRet_of_depth hdepth
  exact ⟨_, hexec, rfl, rfl, rfl, rfl, (exec_next_completion hexec).frame⟩

/-- Settles O32: the return pops the entry the call pushed at SP, which leaves every entry below SP alone. -/
theorem callThenReturnResumesAfterTheCall : Obligations.CallThenReturnResumesAfterTheCall := by
  intro nnn s hroom
  obtain ⟨t, hcall, hstack, hsp, -, -, hframe⟩ := (callPushesItsOwnAddress nnn s).2 hroom
  obtain ⟨u, hret, hpc, hsp', hstack', -, hframe'⟩ := (returnGoesPastThePoppedAddress t).2 ⟨s.sp.val, hroom⟩ hsp
  refine ⟨t, u, hcall, hret, ?pc, Fin.ext hsp', fun j hj => ?live, hframe.trans hframe'⟩
  case pc => simp [hpc, hstack]
  case live =>
    have hne : s.sp.val ≠ j.val := by omega
    simp [hstack', hstack, hne]

/-- Settles O56: both skips end in the shared key skip; SKP wants the key pressed, SKNP not pressed. -/
theorem keySkipsSampleTheKeyArray : Obligations.KeySkipsSampleTheKeyArray := by
  intro x s
  refine ⟨fun hbig => ⟨keySkip_of_big true hbig, keySkip_of_big false hbig⟩, fun k hk => ?_⟩
  have hskp : exec (.skpVx x) s = skipIf (s.keys[k] == true) s := keySkip_of_key true hk
  have hsknp : exec (.sknpVx x) s = skipIf (s.keys[k] == false) s := keySkip_of_key false hk
  have hpressed : (s.keys[k] == true) = true ↔ s.keys[k] = true := beq_iff_eq
  have hreleased : (s.keys[k] == false) = true ↔ ¬s.keys[k] = true := by rw [beq_iff_eq, Bool.not_eq_true]
  obtain ⟨t, ht, hpc, hrest⟩ := skipIf_completes hreleased s
  rw [hskp, hsknp]
  exact ⟨skipIf_completes hpressed s, t, ht, by rw [hpc, ite_not], hrest⟩

end Sys2Proof.Machine

/-! SUPPORT. The bitwise operations, the flag writers and the random instruction (42_alu.md, sections 3 and 4). -/

namespace Sys2Proof.Machine

/-- Settles O38: each handler writes the bitwise result to V[x] and no other register. -/
theorem bitwiseOperationsWriteNoFlag : Obligations.BitwiseOperationsWriteNoFlag := by
  intro x y s
  refine ⟨?or, ?and, ?xor⟩
  case or =>
    obtain ⟨t, hexec, hreg, hrest⟩ := aluDone_setReg_completes x (s.reg x ||| s.reg y) s
    exact ⟨t, hexec, fun b => by rw [hreg, BitVec.getLsbD_or], hrest⟩
  case and =>
    obtain ⟨t, hexec, hreg, hrest⟩ := aluDone_setReg_completes x (s.reg x &&& s.reg y) s
    exact ⟨t, hexec, fun b => by rw [hreg, BitVec.getLsbD_and], hrest⟩
  case xor =>
    obtain ⟨t, hexec, hreg, hrest⟩ := aluDone_setReg_completes x (s.reg x ^^^ s.reg y) s
    exact ⟨t, hexec, fun b => by rw [hreg, BitVec.getLsbD_xor], hrest⟩

/-! ### The flag -/

theorem toNat_flagByte (b : Bool) : (flagByte b).toNat = b.toNat := by
  cases b <;> rfl

theorem flagByte_eq_zero_or_one (b : Bool) : flagByte b = 0 ∨ flagByte b = 1 := by
  cases b
  · exact .inl rfl
  · exact .inr rfl

theorem flagByte_carryOut (a b : Byte) : flagByte (carryOut a b) = if 256 ≤ a.toNat + b.toNat then 1 else 0 := by
  simp [flagByte, carryOut, Nat.succ_le_iff]

theorem flagByte_noBorrow (a b : Byte) : flagByte (noBorrow a b) = if a.toNat < b.toNat then 0 else 1 := by
  rw [← ite_not]
  simp [flagByte, noBorrow]

theorem toNat_flagByte_lowBit (a : Byte) : (flagByte (lowBit a)).toNat = a.toNat % 2 := by
  rw [toNat_flagByte, lowBit, BitVec.getLsbD, Nat.toNat_testBit, Nat.pow_zero, Nat.div_one]

theorem toNat_flagByte_highBit (a : Byte) : (flagByte (highBit a)).toNat = a.toNat / 128 := by
  have ha := a.isLt
  rw [toNat_flagByte, highBit, BitVec.getLsbD, Nat.toNat_testBit]
  omega

theorem toNat_shiftRight_one (a : Byte) : (a >>> 1).toNat = a.toNat / 2 := by
  rw [BitVec.toNat_ushiftRight, Nat.shiftRight_eq_div_pow, Nat.pow_one]

theorem toNat_shiftLeft_one (a : Byte) : (a <<< 1).toNat = 2 * a.toNat % 256 := by
  rw [BitVec.toNat_shiftLeft, Nat.shiftLeft_eq, Nat.pow_one, Nat.mul_comm]

/-- Subtraction of bytes is subtraction modulo 256. -/
theorem toNat_sub_emod (a b : Byte) : ((a - b).toNat : Int) = (a.toNat - b.toNat : Int) % 256 := by
  have ha := a.isLt
  have hb := b.isLt
  rw [BitVec.toNat_sub]
  omega

/-! ### Result and flag -/

theorem reg_vf_resultThenFlag (s : State) (x : Reg) (u : Byte) (b : Bool) :
    (s.resultThenFlag x u b).reg vf = flagByte b := State.reg_setReg_self _ _ _

theorem reg_resultThenFlag {x : Reg} (hx : x ≠ vf) (s : State) (u : Byte) (b : Bool) :
    (s.resultThenFlag x u b).reg x = u := by
  rw [State.resultThenFlag, State.setFlag, State.reg_setReg_of_ne _ _ hx, State.reg_setReg_self]

theorem reg_flagThenShiftRight {x : Reg} (hx : x ≠ vf) (s : State) : (s.flagThenShiftRight x).reg x = s.reg x >>> 1 := by
  rw [State.flagThenShiftRight, State.reg_setReg_self, State.setFlag, State.reg_setReg_of_ne _ _ hx]

theorem reg_vf_flagThenShiftRight {x : Reg} (hx : x ≠ vf) (s : State) :
    (s.flagThenShiftRight x).reg vf = flagByte (lowBit (s.reg x)) := by
  rw [State.flagThenShiftRight, State.reg_setReg_of_ne _ _ hx.symm, State.setFlag, State.reg_setReg_self]

theorem reg_flagThenShiftLeft {x : Reg} (hx : x ≠ vf) (s : State) : (s.flagThenShiftLeft x).reg x = s.reg x <<< 1 := by
  rw [State.flagThenShiftLeft, State.reg_setReg_self, State.setFlag, State.reg_setReg_of_ne _ _ hx]

theorem reg_vf_flagThenShiftLeft {x : Reg} (hx : x ≠ vf) (s : State) :
    (s.flagThenShiftLeft x).reg vf = flagByte (highBit (s.reg x)) := by
  rw [State.flagThenShiftLeft, State.reg_setReg_of_ne _ _ hx.symm, State.setFlag, State.reg_setReg_self]

/-- With VF as destination a shift shifts the flag itself (D17). -/
theorem reg_vf_flagThenShiftRight_vf (s : State) : (s.flagThenShiftRight vf).reg vf = flagByte (lowBit (s.reg vf)) >>> 1 := by
  rw [State.flagThenShiftRight, State.reg_setReg_self, State.setFlag, State.reg_setReg_self]

theorem reg_vf_flagThenShiftLeft_vf (s : State) : (s.flagThenShiftLeft vf).reg vf = flagByte (highBit (s.reg vf)) <<< 1 := by
  rw [State.flagThenShiftLeft, State.reg_setReg_self, State.setFlag, State.reg_setReg_self]

/-- The common end of the ALU instructions after any writes to registers. -/
theorem aluDone_completes {fp : Footprint} {s u : State} (h : Writes fp s u) :
    ∃ t, aluDone u = .next t ∧ (∀ r, t.reg r = u.reg r) ∧ t.pc = s.pc + 2 ∧ t.signal = .none ∧ Frame fp s t :=
  ⟨_, rfl, fun _ => rfl, congrArg (· + 2) h.pc, rfl, h.frame.trans (frame_setPc_emit _ u (u.pc + 2) .none)⟩

/-- Add, subtract and subtract-reversed with a destination other than VF. -/
theorem aluDone_resultThenFlag_completes {x : Reg} (hx : x ≠ vf) (u : Byte) (b : Bool) (s : State) :
    ∃ t, aluDone (s.resultThenFlag x u b) = .next t ∧ t.reg x = u ∧ t.reg vf = flagByte b ∧ t.pc = s.pc + 2 ∧
      t.signal = .none ∧ Frame { regs := [x, vf] } s t := by
  have hwrites : Writes { regs := [x, vf] } s (s.resultThenFlag x u b) := Writes.resultThenFlag (by simp) (by simp) s u b
  obtain ⟨t, hexec, hreg, hrest⟩ := aluDone_completes hwrites
  exact ⟨t, hexec, by rw [hreg, reg_resultThenFlag hx], by rw [hreg, reg_vf_resultThenFlag], hrest⟩

/-- Settles O39: the 8-bit sum, and the carry it drops. -/
theorem addRegistersSetsTheCarry : Obligations.AddRegistersSetsTheCarry := by
  intro x y s hx
  obtain ⟨t, hexec, hreg, hflag, hrest⟩ :=
    aluDone_resultThenFlag_completes hx (s.reg x + s.reg y) (carryOut (s.reg x) (s.reg y)) s
  exact ⟨t, hexec, by rw [hreg, BitVec.toNat_add], by rw [hflag, flagByte_carryOut], hrest⟩

/-- Settles O40: the 8-bit difference, and whether it needed no borrow. -/
theorem subtractSetsNoBorrow : Obligations.SubtractSetsNoBorrow := by
  intro x y s hx
  obtain ⟨t, hexec, hreg, hflag, hrest⟩ :=
    aluDone_resultThenFlag_completes hx (s.reg x - s.reg y) (noBorrow (s.reg x) (s.reg y)) s
  exact ⟨t, hexec, by rw [hreg, toNat_sub_emod], by rw [hflag, flagByte_noBorrow], hrest⟩

/-- Settles O41: as subtract, with the operands exchanged. -/
theorem subtractReversedSetsNoBorrow : Obligations.SubtractReversedSetsNoBorrow := by
  intro x y s hx
  obtain ⟨t, hexec, hreg, hflag, hrest⟩ :=
    aluDone_resultThenFlag_completes hx (s.reg y - s.reg x) (noBorrow (s.reg y) (s.reg x)) s
  exact ⟨t, hexec, by rw [hreg, toNat_sub_emod], by rw [hflag, flagByte_noBorrow], hrest⟩

/-- Settles O42: the shift drops bit 0, which is the value modulo 2. -/
theorem shiftRightKeepsTheLostBit : Obligations.ShiftRightKeepsTheLostBit := by
  intro x s hx
  have hwrites : Writes { regs := [x, vf] } s (s.flagThenShiftRight x) := Writes.flagThenShiftRight (by simp) (by simp) s
  obtain ⟨t, hexec, hreg, hrest⟩ := aluDone_completes hwrites
  have hresult : (t.reg x).toNat = (s.reg x).toNat / 2 := by rw [hreg, reg_flagThenShiftRight hx, toNat_shiftRight_one]
  have hflag : (t.reg vf).toNat = (s.reg x).toNat % 2 := by rw [hreg, reg_vf_flagThenShiftRight hx, toNat_flagByte_lowBit]
  exact ⟨t, hexec, hresult, hflag, hrest⟩

/-- Settles O43: the shift drops bit 7, which is the value divided by 128. -/
theorem shiftLeftKeepsTheLostBit : Obligations.ShiftLeftKeepsTheLostBit := by
  intro x s hx
  have hwrites : Writes { regs := [x, vf] } s (s.flagThenShiftLeft x) := Writes.flagThenShiftLeft (by simp) (by simp) s
  obtain ⟨t, hexec, hreg, hrest⟩ := aluDone_completes hwrites
  have hresult : (t.reg x).toNat = 2 * (s.reg x).toNat % 256 := by rw [hreg, reg_flagThenShiftLeft hx, toNat_shiftLeft_one]
  have hflag : (t.reg vf).toNat = (s.reg x).toNat / 128 := by rw [hreg, reg_vf_flagThenShiftLeft hx, toNat_flagByte_highBit]
  exact ⟨t, hexec, hresult, hflag, hrest⟩

/-- The flag shifted right is 0: it has no bit but bit 0. -/
theorem flagByte_shiftRight_one (b : Bool) : flagByte b >>> 1 = 0 := by
  cases b <;> rfl

/-- The flag shifted left is 0 or 2, as bit 7 was 0 or 1. -/
theorem flagByte_highBit_shiftLeft_one (a : Byte) : flagByte (highBit a) <<< 1 = if a.toNat < 0x80 then 0 else 2 := by
  have hflag := toNat_flagByte_highBit a
  have ha := a.isLt
  apply BitVec.eq_of_toNat_eq
  rw [toNat_shiftLeft_one, hflag]
  split
  · next h => simp; omega
  · next h => simp; omega

/-- Add, subtract and subtract-reversed with VF as destination: the flag is written last (D17). -/
theorem aluDone_resultThenFlag_vf_completes (u : Byte) (b : Bool) (s : State) :
    ∃ t, aluDone (s.resultThenFlag vf u b) = .next t ∧ t.reg vf = flagByte b ∧ t.pc = s.pc + 2 ∧ t.signal = .none ∧
      Frame { regs := [vf] } s t := by
  have hwrites : Writes { regs := [vf] } s (s.resultThenFlag vf u b) := Writes.resultThenFlag (by simp) (by simp) s u b
  obtain ⟨t, hexec, hreg, hrest⟩ := aluDone_completes hwrites
  exact ⟨t, hexec, by rw [hreg, reg_vf_resultThenFlag], hrest⟩

/-- Settles O44: the flag survives the three results, and the shifts shift it. -/
theorem flagWritersWithDestinationVf : Obligations.FlagWritersWithDestinationVf := by
  intro y s
  refine ⟨?add, ?sub, ?subn, ?shr, ?shl⟩
  case add =>
    obtain ⟨t, hexec, hflag, hrest⟩ := aluDone_resultThenFlag_vf_completes _ (carryOut (s.reg vf) (s.reg y)) s
    exact ⟨t, hexec, by rw [hflag, flagByte_carryOut], hrest⟩
  case sub =>
    obtain ⟨t, hexec, hflag, hrest⟩ := aluDone_resultThenFlag_vf_completes _ (noBorrow (s.reg vf) (s.reg y)) s
    exact ⟨t, hexec, by rw [hflag, flagByte_noBorrow], hrest⟩
  case subn =>
    obtain ⟨t, hexec, hflag, hrest⟩ := aluDone_resultThenFlag_vf_completes _ (noBorrow (s.reg y) (s.reg vf)) s
    exact ⟨t, hexec, by rw [hflag, flagByte_noBorrow], hrest⟩
  case shr =>
    have hwrites : Writes { regs := [vf] } s (s.flagThenShiftRight vf) := Writes.flagThenShiftRight (by simp) (by simp) s
    obtain ⟨t, hexec, hreg, hrest⟩ := aluDone_completes hwrites
    exact ⟨t, hexec, by rw [hreg, reg_vf_flagThenShiftRight_vf, flagByte_shiftRight_one], hrest⟩
  case shl =>
    have hwrites : Writes { regs := [vf] } s (s.flagThenShiftLeft vf) := Writes.flagThenShiftLeft (by simp) (by simp) s
    obtain ⟨t, hexec, hreg, hrest⟩ := aluDone_completes hwrites
    exact ⟨t, hexec, by rw [hreg, reg_vf_flagThenShiftLeft_vf, flagByte_highBit_shiftLeft_one], hrest⟩

theorem reg_of_aluDone {u t : State} (h : aluDone u = .next t) (r : Reg) : t.reg r = u.reg r := by
  cases h; rfl

/-- Settles O26: VF stays where the footprint does not name it, and what a flag writer leaves there is a flag byte. -/
theorem onlyFlagWritersTouchVf : Obligations.OnlyFlagWritersTouchVf := by
  intro i s t h
  refine ⟨fun ⟨_, hvf⟩ => (exec_next_completion h).frame.regs vf hvf, ?writers, ?draw⟩
  case writers =>
    rintro ⟨x, y, hx, rfl | rfl | rfl | rfl | rfl⟩
    · rw [reg_of_aluDone h, reg_vf_resultThenFlag]; exact flagByte_eq_zero_or_one _
    · rw [reg_of_aluDone h, reg_vf_resultThenFlag]; exact flagByte_eq_zero_or_one _
    · rw [reg_of_aluDone h, reg_vf_resultThenFlag]; exact flagByte_eq_zero_or_one _
    · rw [reg_of_aluDone h, reg_vf_flagThenShiftRight hx]; exact flagByte_eq_zero_or_one _
    · rw [reg_of_aluDone h, reg_vf_flagThenShiftLeft hx]; exact flagByte_eq_zero_or_one _
  case draw =>
    rintro ⟨x, y, n, rfl⟩
    simp only [exec, execDrwVxVyN] at h
    split at h
    · cases h
      rw [State.emit_reg, State.advance_reg, State.setFlag, State.reg_setReg_self]
      exact flagByte_eq_zero_or_one _
    · cases h

/-- Settles O45: the byte masked is the next of the random input, which the draw takes off. -/
theorem randomMasksOneFreshByte : Obligations.RandomMasksOneFreshByte := by
  intro x kk s
  have hwrites : Writes { regs := [x], random := true } s (s.drawn.setReg x (kk &&& s.randomByte)) :=
    (Writes.drawn rfl s).trans (Writes.setReg (List.mem_singleton_self x) _ _)
  refine ⟨_, s.randomByte, rfl, fun b => ?mask, fun r rest hin => ⟨s.randomByte_of_injected r rest hin, congrArg List.tail hin⟩,
    congrArg List.tail, rfl, rfl, rfl, hwrites.frame.trans (frame_setPc_emit _ _ (s.pc + 2) .none)⟩
  case mask => rw [State.emit_reg, State.advance_reg, State.reg_setReg_self, BitVec.getLsbD_and]

end Sys2Proof.Machine

/-! SUPPORT. The index register and the transfers between registers and memory (43_index_memory.md, sections 2 to 4). -/

namespace Sys2Proof.Machine

/-- Settles O47: the handler is a write of I, the sum reduced modulo 4096. -/
theorem addToIndexWrapsAt4096 : Obligations.AddToIndexWrapsAt4096 := by
  intro x s
  have hexec : exec (.addIVx x) s = _ := rfl
  exact ⟨_, hexec, toNat_indexPlus s.i (s.reg x), rfl, rfl, (exec_next_completion hexec).frame⟩

/-- Settles O48: a value of 16 or more crashes, and otherwise I becomes the glyph's address. -/
theorem setIndexToFontPointsAtTheGlyph : Obligations.SetIndexToFontPointsAtTheGlyph := by
  intro x s
  refine ⟨execLdFVx_of_big, fun hdigit => ?_⟩
  have hexec : exec (.ldFVx x) s = _ := execLdFVx_of_digit hdigit
  exact ⟨_, hexec, toNat_glyphAddress hdigit, rfl, rfl, (exec_next_completion hexec).frame⟩

/-- A store that ends inside memory: each byte at its address, in the order given. -/
theorem storeAtIndex_completes {bs : List Byte} {s : State} (h : s.i.toNat + bs.length ≤ 4096) :
    ∃ t, storeAtIndex bs s = .next t ∧ (∀ k (hk : k < bs.length), t.byte (s.i.toNat + k) = bs[k]) ∧ t.pc = s.pc + 2 ∧
      t.signal = .none :=
  ⟨_, storeAtIndex_of_inside h, fun k hk => s.byte_putBytes_inside _ k bs hk, rfl, rfl⟩

theorem toNat_ofNat_byte {n : Nat} (h : n < 256) : (BitVec.ofNat 8 n).toNat = n := by
  rw [BitVec.toNat_ofNat, Nat.mod_eq_of_lt h]

/-- Settles O49: the store has three bytes, the digits. -/
theorem storeBcdWritesThreeDigits : Obligations.StoreBcdWritesThreeDigits := by
  intro x s
  have hv := (s.reg x).isLt
  refine ⟨fun hout => storeAtIndex_of_outside (Nat.succ_lt_succ hout), fun hin => ?_⟩
  obtain ⟨t, hexec, hbytes, hpc, hsignal⟩ :=
    storeAtIndex_completes (bs := bcdDigits (s.reg x)) (s := s) (Nat.succ_le_succ hin)
  refine ⟨t, hexec, ?hundreds, ?tens, ?units, hpc, hsignal, (exec_next_completion (i := .ldBVx x) hexec).frame⟩
  case hundreds => exact (congrArg _ (hbytes 0 (by simp [bcdDigits]))).trans (toNat_ofNat_byte (by omega))
  case tens => exact (congrArg _ (hbytes 1 (by simp [bcdDigits]))).trans (toNat_ofNat_byte (by omega))
  case units => exact (congrArg _ (hbytes 2 (by simp [bcdDigits]))).trans (toNat_ofNat_byte (by omega))

/-- Settles O50: the store has the x + 1 registers from V[0] on. -/
theorem registerDumpStoresTheRegisters : Obligations.RegisterDumpStoresTheRegisters := by
  intro x s
  have hlen : (s.regsUpTo x).length = x.val + 1 := s.length_regsUpTo x
  refine ⟨fun hout => storeAtIndex_of_outside (by rw [hlen]; exact Nat.succ_lt_succ hout), fun hin => ?_⟩
  obtain ⟨t, hexec, hbytes, hpc, hsignal⟩ :=
    storeAtIndex_completes (bs := s.regsUpTo x) (s := s) (by rw [hlen]; exact Nat.succ_le_succ hin)
  refine ⟨t, hexec, fun r hr => ?_, hpc, hsignal, (exec_next_completion (i := .ldMemVx x) hexec).frame⟩
  have hrlt : r.val < (s.regsUpTo x).length := by rw [hlen]; exact Nat.lt_succ_of_le hr
  rw [hbytes r.val hrlt, State.getElem_regsUpTo]

/-- Settles O51: the load fills the x + 1 registers from V[0] on with the bytes from I on. -/
theorem registerLoadFillsTheRegisters : Obligations.RegisterLoadFillsTheRegisters := by
  intro x s
  refine ⟨fun hout => execLdVxMem_of_outside (Nat.succ_lt_succ hout), fun hin => ?_⟩
  have hexec : exec (.ldVxMem x) s = _ := execLdVxMem_of_inside (Nat.succ_le_succ hin)
  refine ⟨_, hexec, fun r hr => ?loaded, fun r hr => ?kept, rfl, rfl, (exec_next_completion hexec).frame⟩
  case loaded =>
    have hrlt : r.val < x.val + 1 := Nat.lt_succ_of_le hr
    rw [State.emit_reg, State.advance_reg, State.reg_setRegsFrom, dif_pos ⟨Nat.zero_le _, by simpa using hrlt⟩,
      State.getElem_bytesAt]
    rfl
  case kept =>
    have hrle : ¬r.val < x.val + 1 := Nat.not_lt.mpr hr
    rw [State.emit_reg, State.advance_reg, State.reg_setRegsFrom, dif_neg fun h => hrle (by simpa using h.2)]

/-- Settles O52: the dump completed, so its range lies inside memory, and the load reads there what the dump stored. -/
theorem registerLoadInvertsRegisterDump : Obligations.RegisterLoadInvertsRegisterDump := by
  intro x s t u hdump hmem hconfig hindex
  have hframe := (exec_next_completion hdump).frame
  have hin : s.i.toNat + x.val ≤ 4095 := by
    by_contra hout
    rw [(registerDumpStoresTheRegisters x s).1 (Nat.lt_of_not_le hout)] at hdump
    cases hdump
  have hi : u.i = s.i := hindex.trans (hframe.index rfl)
  have hbyte : ∀ a, u.byte a = t.byte a := fun a => by rw [State.byte, State.byte, hmem, hconfig]
  obtain ⟨t', hdump', hstored, -⟩ := (registerDumpStoresTheRegisters x s).2 hin
  obtain rfl : t = t' := Host.Outcome.next.inj (hdump.symm.trans hdump')
  obtain ⟨w, hload, hloaded, -⟩ := (registerLoadFillsTheRegisters x u).2 (by rwa [hi])
  exact ⟨w, hload, fun r hr => by rw [hloaded r hr, hbyte, hi, hstored r hr]⟩

end Sys2Proof.Machine

/-! SUPPORT. The draw (44_display.md, section 3). -/

namespace Sys2Proof.Machine

/-- The compositor's rows land where the rules say a set sprite bit does. -/
theorem rowsLand_iff_spriteSets (s : State) (xs ys n : Nat) (px : Fin 64) (py : Fin 32) :
    RowsLand s xs ys n 0 px py ↔ SpriteSets s xs ys n px py := by
  constructor
  · rintro ⟨r, -, hr, c, -, hc, hbit, hpx, hpy⟩
    exact ⟨r, c, by omega, by omega, congrArg Fin.val hpx, congrArg Fin.val hpy, hbit⟩
  · rintro ⟨r, c, hr, hc, hpx, hpy, hbit⟩
    exact ⟨r, Nat.zero_le r, by omega, c, Nat.zero_le c, by omega, hbit, Fin.ext hpx, Fin.ext hpy⟩

/-- Settles O54: the compositor's law, its canvas started from DISP with no hit, and the hit written to VF. -/
theorem drawXorsTheSpriteAndFlagsCollision : Obligations.DrawXorsTheSpriteAndFlagsCollision := by
  intro x y n s hwf hin
  have hn : n ≤ 15 := of_decide_eq_true hwf
  obtain ⟨cv, hrows, hpixel, hhit⟩ := composeRows_ok s (s.reg x).toNat (s.reg y).toNat n 0 { disp := s.disp, hit := false }
    (by omega) (fun r _ hr => hin r (by omega))
  simp only [rowsLand_iff_spriteSets, Bool.false_eq_true, false_or] at hpixel hhit
  have hexec : exec (.drwVxVyN x y n) s = _ := execDrwVxVyN_of_ok hrows
  have hflag : (((s.setDisp cv.disp).setFlag cv.hit).advance 2).reg vf = flagByte cv.hit := State.reg_setReg_self _ _ _
  refine ⟨_, hexec, fun px py => (hpixel px py).1, fun px py => (hpixel px py).2, fun hcollision => ?hit,
    fun hnone => ?miss, rfl, rfl, (exec_next_completion hexec).frame⟩
  case hit => exact hflag.trans (by rw [hhit.mpr hcollision]; rfl)
  case miss =>
    have hmiss : cv.hit = false := by
      rw [← Bool.not_eq_true, hhit]
      rintro ⟨px, py, hsets, hset⟩
      exact absurd (hnone px py hsets) (by rw [State.readPixel, hset]; decide)
    exact hflag.trans (by rw [hmiss]; rfl)

end Sys2Proof.Machine

/-! SUPPORT. The key wait and its end (45_timers_keys.md, section 3). -/

namespace Sys2Proof.Machine

/-- Settles O57: the handler is a write of WAIT and the common end that moves PC by 2, with WAIT_KEY. -/
theorem waitForKeyRecordsItsRegister : Obligations.WaitForKeyRecordsItsRegister := by
  intro x s
  have hexec : exec (.ldVxK x) s = _ := rfl
  exact ⟨_, hexec, rfl, rfl, rfl, (exec_next_completion hexec).frame⟩

theorem keyEvent_of_wait {s : State} {x : Reg} (hwait : s.wait = some x) (k : Reg) :
    keyEvent k.val s = .next (s.deliverKey x k) := by
  simp [keyEvent, hwait]

theorem Writes.deliverKey {fp : Footprint} {x : Reg} (hx : x ∈ fp.regs) (hwait : fp.wait = true) (s : State) (k : Reg) :
    Writes fp s (s.deliverKey x k) :=
  (Writes.setReg hx s _).trans (Writes.setWait hwait _ _)

/-- Settles O58: the delivery is a write of the waiting register and of WAIT, and the host's move delivers the head of its
queue. -/
theorem keyEventEndsTheWait : Obligations.KeyEventEndsTheWait := by
  intro s x k rest hwait
  have hevent := keyEvent_of_wait hwait
  refine ⟨⟨_, hevent k, State.reg_setReg_self _ _ _, rfl, rfl, rfl, ?frame⟩, fun n hn => ?tooLarge, fun n => rfl,
    step_waiting s x hwait, fun hqueue => ⟨_, hevent k, ?drive⟩⟩
  case frame => exact (Writes.deliverKey (List.mem_singleton_self x) rfl s k).frame
  case tooLarge => simp [keyEvent, hwait, Nat.not_lt.mpr hn]
  case drive =>
    rcases drive_cases s with ⟨x', k', rest', hwait', hqueue', hdrive⟩ | ⟨hwait' | hqueue', -⟩
    · obtain rfl : x = x' := Option.some.inj (hwait.symm.trans hwait')
      obtain ⟨rfl, rfl⟩ := List.cons.inj (hqueue.symm.trans hqueue')
      rw [hdrive]
      rfl
    · rw [hwait] at hwait'; cases hwait'
    · rw [hqueue] at hqueue'; cases hqueue'

end Sys2Proof.Machine

/-! SUPPORT. Canonical memory, construction, and what every run keeps (20_memory.md, section 1; 70_reset_and_hazards.md,
section 1; 10_state.md, section 10). -/

namespace Sys2Proof.Machine

/-- The first cell of a canonical memory reads as listed, which is not what it would read as unlisted. -/
theorem Memory.read_head {font : Font} {lo b : Nat} {u : Byte} {m : List Host.Cell}
    (h : Memory.wfFrom font lo ((b, u) :: m) = true) : Memory.read font ((b, u) :: m) b ≠ Memory.unlisted font b := by
  simp only [Memory.wfFrom, Bool.and_eq_true, decide_eq_true_eq] at h
  obtain ⟨⟨-, -, hu⟩, -⟩ := h
  rwa [Memory.read, if_pos rfl]

/-- Below its first cell a canonical memory reads as unlisted. -/
theorem Memory.read_below_head {font : Font} {lo a b : Nat} {u : Byte} {m : List Host.Cell}
    (h : Memory.wfFrom font lo ((b, u) :: m) = true) (ha : a < b) :
    Memory.read font ((b, u) :: m) a = Memory.unlisted font a := by
  refine Memory.read_of_wfFrom_below font (lo := b) ?_ ha
  simp only [Memory.wfFrom, Bool.and_eq_true, decide_eq_true_eq] at h ⊢
  obtain ⟨⟨-, hb, hu⟩, hrest⟩ := h
  exact ⟨⟨le_refl b, hb, hu⟩, hrest⟩

/-- The rest of a canonical memory is canonical above its first cell. -/
theorem Memory.wfFrom_rest {font : Font} {lo b : Nat} {u : Byte} {m : List Host.Cell}
    (h : Memory.wfFrom font lo ((b, u) :: m) = true) : Memory.wfFrom font (b + 1) m = true := by
  rw [Memory.wfFrom, Bool.and_eq_true] at h
  exact h.2

/-- The rest of a canonical memory reads as the whole does but at the first cell, where it reads as unlisted. -/
theorem Memory.read_rest {font : Font} {lo b : Nat} {u : Byte} {m : List Host.Cell}
    (h : Memory.wfFrom font lo ((b, u) :: m) = true) (a : Nat) :
    Memory.read font m a = if a = b then Memory.unlisted font a else Memory.read font ((b, u) :: m) a := by
  split
  · next hab => exact Memory.read_of_wfFrom_below font (Memory.wfFrom_rest h) (by omega)
  · next hab => rw [Memory.read, if_neg hab]

/-- Canonical memories that read the same are equal: their first cells stand at one address, or the lower one would read as
unlisted in the other, and their rests read the same. -/
theorem Memory.eq_of_read_eq {font : Font} {lo : Nat} {m m' : List Host.Cell} (h : Memory.wfFrom font lo m = true)
    (h' : Memory.wfFrom font lo m' = true) (hread : ∀ a, Memory.read font m a = Memory.read font m' a) : m = m' := by
  induction m generalizing lo m' with
  | nil =>
    cases m' with
    | nil => rfl
    | cons c' rest' => exact absurd (hread c'.1).symm (Memory.read_head h')
  | cons c rest ih =>
    obtain ⟨b, u⟩ := c
    cases m' with
    | nil => exact absurd (hread b) (Memory.read_head h)
    | cons c' rest' =>
      obtain ⟨b', u'⟩ := c'
      rcases Nat.lt_trichotomy b b' with hlt | rfl | hlt
      · exact absurd ((hread b).trans (Memory.read_below_head h' hlt)) (Memory.read_head h)
      · have hu := hread b
        rw [Memory.read, Memory.read, if_pos rfl, if_pos rfl] at hu
        have hrest := ih (Memory.wfFrom_rest h) (Memory.wfFrom_rest h')
          (fun a => by rw [Memory.read_rest h, Memory.read_rest h', hread])
        rw [hu, hrest]
      · exact absurd ((hread b').symm.trans (Memory.read_below_head h hlt)) (Memory.read_head h')

/-- Settles O22. -/
theorem equalCanonicalMemoriesAreEqualLists : Obligations.EqualCanonicalMemoriesAreEqualLists :=
  fun _ _ _ => Memory.eq_of_read_eq

/-! ### Construction -/

/-- The state a construction starts from: after reset, with the machine's parameters. -/
def State.resetWith (config : Config) : State := { State.reset with config := config }

theorem construct_of_fits (config : Config) {program : List Byte} (h : program.length ≤ 3584) :
    construct config program = .ok ((State.resetWith config).putBytes 0x200 program) := if_pos h

theorem construct_of_too_large (config : Config) {program : List Byte} (h : 3584 < program.length) :
    construct config program = .error .programTooLarge := if_neg (Nat.not_le.mpr h)

/-- The image: the font, zeros, the program at 0x200 and zeros (20_memory.md R62). -/
theorem byte_constructed (config : Config) (program : List Byte) (a : Nat) :
    ((State.resetWith config).putBytes 0x200 program).byte a =
      if h : a < 80 then config.font[a] else if 0x200 ≤ a then program.getD (a - 0x200) 0 else 0 := by
  by_cases hin : 0x200 ≤ a ∧ a < 0x200 + program.length
  · obtain ⟨k, rfl⟩ := Nat.exists_eq_add_of_le hin.1
    have hk : k < program.length := by omega
    rw [State.byte_putBytes_inside _ _ _ _ hk, dif_neg (by omega), if_pos hin.1, Nat.add_sub_cancel_left,
      List.getD_eq_getElem _ _ hk]
  · rw [State.byte_putBytes_outside _ _ _ _ hin]
    change Memory.unlisted config.font a = _
    unfold Memory.unlisted
    split
    · rfl
    · split
      · exact (List.getD_eq_default _ _ (by omega)).symm
      · rfl

/-- Settles O21. -/
theorem constructionGivesTheInitialImage : Obligations.ConstructionGivesTheInitialImage := by
  intro config program
  refine ⟨construct_of_too_large config, fun h => ?_⟩
  have hreg : ∀ r, ((State.resetWith config).putBytes 0x200 program).reg r = 0 := by
    intro r
    simp [State.resetWith, State.reset, State.reg]
  have hkeys : ∀ k : Reg, ((State.resetWith config).putBytes 0x200 program).keys[k] = false := by
    intro k
    simp [State.resetWith, State.reset]
  exact ⟨_, construct_of_fits config h, fun a _ => byte_constructed config program a, rfl, rfl, hreg, rfl, rfl, rfl, rfl, rfl,
    Display.pixel_blank, hkeys, rfl, rfl⟩

/-! ### Runs -/

theorem construct_inv {config : Config} {program : List Byte} {s : State} (h : construct config program = .ok s) : s.Inv := by
  rcases Nat.lt_or_ge 3584 program.length with hlarge | hfits
  · rw [construct_of_too_large config hlarge] at h
    cases h
  · rw [construct_of_fits config hfits] at h
    cases h
    have hmem : Memory.wf config.font (Memory.writeBytes config.font [] 0x200 program) = true :=
      Memory.wf_writeBytes _ (Memory.wf_nil _) (by omega)
    have hreset := resetMeetsTheInvariant
    exact ⟨hmem, hreset.index, hreset.counter, hreset.live, sixty_le_clockRate _⟩

/-- The invariant reads neither the registers nor the wait, so the delivery of a key keeps it. -/
theorem deliverKey_inv {s : State} (h : s.Inv) (x k : Reg) : (s.deliverKey x k).Inv :=
  ⟨h.memory, h.index, h.counter, h.live, h.rate⟩

theorem keyEvent_inv {s t : State} {k : Nat} (hinv : s.Inv) (h : keyEvent k s = .next t) : t.Inv := by
  unfold keyEvent at h
  split at h
  · cases h
  · split at h
    · cases h; exact deliverKey_inv hinv _ _
    · cases h

/-- Every operation of the core and the host keeps the invariant. -/
theorem move_inv {s t : State} {m : Move} (hinv : s.Inv) (h : m.apply s = .next t) : t.Inv := by
  cases m with
  | step => exact everyStepKeepsTheInvariant s t hinv h
  | keyEvent k => exact keyEvent_inv hinv h
  | writeKey k pressed => cases h; exact ⟨hinv.memory, hinv.index, hinv.counter, hinv.live, hinv.rate⟩
  | injectRandom u => cases h; exact ⟨hinv.memory, hinv.index, hinv.counter, hinv.live, hinv.rate⟩
  | queueKey k => cases h; exact ⟨hinv.memory, hinv.index, hinv.counter, hinv.live, hinv.rate⟩
  | drive =>
    rw [Move.apply] at h
    rcases drive_cases s with ⟨x, k, rest, -, -, hdrive⟩ | ⟨-, hdrive⟩ <;> rw [hdrive] at h
    · cases h
      exact deliverKey_inv (s := { s with keyIn := rest }) ⟨hinv.memory, hinv.index, hinv.counter, hinv.live, hinv.rate⟩ x k
    · exact everyStepKeepsTheInvariant s t hinv h

theorem play_inv {moves : List Move} {s t : State} (hinv : s.Inv) (h : play moves s = .next t) : t.Inv := by
  induction moves generalizing s with
  | nil => cases h; exact hinv
  | cons m rest ih =>
    rw [play] at h
    split at h
    · next u hmove => exact ih (move_inv hinv hmove) h
    · cases h
    · cases h

/-- Settles O19: construction meets the invariant and every operation keeps it. -/
theorem everyReachableStateMeetsTheInvariant : Obligations.EveryReachableStateMeetsTheInvariant := by
  rintro config program s ⟨s₀, moves, hconstruct, hplay⟩
  exact play_inv (construct_inv hconstruct) hplay

end Sys2Proof.Machine
